-- ==== Sys2Proof/Word.lean ====
section
/-!
DEFINITION. The plain words of the machine (00_scope.md R5, R6, R9): Machine Word, byte, register field,
Register Identifier. ILEN = 32 (D1), REGW = 5 and NREGS = 32 (D5) are these types' sizes.
-/

namespace Sys2Proof

/-- A Machine Word, ILEN = 32 bits, bit 0 least significant (R6, R35). -/
abbrev Word := BitVec 32

/-- One address unit of the instruction stream (R25). -/
abbrev Byte := BitVec 8

/-- A register field of a word: REGW = 5 bits, not yet a register (R36). -/
abbrev RegField := BitVec 5

/-- A Register Identifier: an index 0 .. NREGS-1 into the flat integer register namespace (R9, R10). The type has
exactly 32 values, so an illegal register index cannot arise (R55, U9). -/
abbrev RegId := Fin 32

end Sys2Proof
end

