-- ==== Sys2Proof/Config.lean ====
section
/-!
DEFINITION. The configuration record `Cfg` (00_scope.md R5). OPEN parameters are fields of `Cfg`, supplied by the launch
(70_reset_and_hazards.md R128) and quantified over by every claim; decided parameters are constants here or sizes of the
types in Word.lean. No free value is needed: no rule leaves an instruction's result open.
-/

namespace Sys2Proof

/-- XLEN is open in 32 or 64 (R5, D4). -/
inductive Xlen where
  | x32
  | x64
  deriving DecidableEq, Repr

/-- The native integer width in bits (R5). -/
def Xlen.bits : Xlen → Nat
  | .x32 => 32
  | .x64 => 64

/-- The signature of `mac`: the three open values of R40 (D3). -/
structure Signature where
  /-- MAC_OPCODE, bits [6:0]. -/
  opcode : BitVec 7
  /-- MAC_FUNCT3, bits [14:12]. -/
  funct3 : BitVec 3
  /-- MAC_FUNCT7, bits [31:25]. -/
  funct7 : BitVec 7
  deriving DecidableEq, Repr

/-- The open parameters of the hardware and its harness (R5). -/
structure Cfg where
  /-- XLEN. -/
  xlen : Xlen
  /-- MAC_OPCODE, MAC_FUNCT3, MAC_FUNCT7. -/
  sig : Signature
  /-- PROG_BASE, which is RESET_PC in the harness (R126, D25), as an unsigned address. -/
  progBase : Nat
  deriving DecidableEq, Repr

/-- XLEN: the width of every integer register (R5). -/
abbrev Cfg.XLEN (c : Cfg) : Nat := c.xlen.bits

/-- PCLEN = XLEN: the width of the program counter (R5, D7; UNVERIFIED, log 5). -/
abbrev Cfg.PCLEN (c : Cfg) : Nat := c.XLEN

/-- IBYTES: one instruction width in bytes (R5, D1). -/
abbrev Config.IBYTES : Nat := 4

/-- ZERO_REG: index 0 is the hard-wired zero register of this hardware (R11, D6; UNVERIFIED, log 12). -/
def Config.zeroReg : Option RegId := some 0

/-- The default signature (R40, D3): what spec/opcode_table.json shows. -/
def Config.defaultSig : Signature :=
  { opcode := 0b0001011, funct3 := 0b000, funct7 := 0b0000000 }

/-- The configuration of `State.reset`: XLEN = 64 "where a single value is needed" (R5), the default signature (R40),
and PROG_BASE = RESET_PC = 0x1000 (DESIGN CHOICE, unsafe, log 4: the spec leaves it open). -/
def Config.default : Cfg :=
  { xlen := .x64, sig := Config.defaultSig, progBase := 0x1000 }

end Sys2Proof
end

