-- ==== Sys2Proof/Syntax.lean ====
section
/-!
DEFINITION. The instruction set, exactly one instruction (R1, R41), and the Instruction Object (R18), the bundle the
decoder hands to the datapath and to the Disassembler.
-/

namespace Sys2Proof

/-- The instructions in scope: one row of the opcode table (R41). -/
inductive Instr where
  /-- `mac rd, rs1, rs2` (R65). -/
  | mac (rd rs1 rs2 : RegId)
  deriving DecidableEq, Repr

/-- The operation-class tag (R86): for `mac` the constant IntAlu; no rule derives anything from it. -/
inductive OpClass where
  | intAlu
  deriving DecidableEq, Repr

/-- The Instruction Object (R18): an immutable value, not architectural state. -/
structure InstrObj where
  /-- The constant "mac" (R56). -/
  mnemonic : String
  /-- The constant IntAlu (R56). -/
  opclass : OpClass
  /-- Destination, read and written. -/
  dest : RegId
  /-- Source-1. -/
  src1 : RegId
  /-- Source-2. -/
  src2 : RegId
  deriving DecidableEq, Repr

end Sys2Proof
end

