-- ==== Sys2Proof/WellFormed.lean ====
section
/-!
DEFINITION. Well-formedness: instructions (R10, R55), Instruction Objects (R18, R56) and launches (R134). Each check is a
Bool; Tests/Slice0.lean shows, for each, an ill-formed term that it refuses.
-/

namespace Sys2Proof

/-- A register index is below NREGS = 32 (R10). On a `RegId` the type already says so (R55). -/
def indexOk (v : Nat) : Bool := v < 32

/-- Every operand of the instruction names a register of the file (R55). -/
def Instr.wf : Instr → Bool
  | .mac rd rs1 rs2 => indexOk rd && indexOk rs1 && indexOk rs2

/-- The Instruction Object carries the fixed mnemonic constant (R18, R56); its operation class has one value only. -/
def InstrObj.wf (o : InstrObj) : Bool := o.mnemonic == "mac"

/-- PROG_BASE is a multiple of IBYTES (R134). -/
def Cfg.baseAligned (c : Cfg) : Bool := c.progBase % Config.IBYTES == 0

/-- Neither the program of `len` words nor its end address wraps (R134). -/
def Cfg.noWrap (c : Cfg) (len : Nat) : Bool := c.progBase + Config.IBYTES * len < 2 ^ c.PCLEN

/-- A configuration and a program the launch may supply (R128, R134). -/
def Cfg.launchOk (c : Cfg) (prog : List Word) : Bool := c.baseAligned && c.noWrap prog.length

end Sys2Proof
end

