-- ==== Sys2Proof/Decode.lean ====
section
/-!
DEFINITION. The decoder (40_decode.md R50 to R59), total on every word and on every list of bytes, rejecting by name; and
the encoder (30_encoding.md R38). Field positions are those of R36 (the spec's decision D2, UNVERIFIED, log 5).
-/

namespace Sys2Proof

/-! ### Field extraction (R37) -/

/-- opcode(w) = w[6:0]. -/
def opcodeOf (w : Word) : BitVec 7 := w.extractLsb' 0 7

/-- rd(w) = w[11:7]. -/
def rdOf (w : Word) : RegField := w.extractLsb' 7 5

/-- funct3(w) = w[14:12]. -/
def funct3Of (w : Word) : BitVec 3 := w.extractLsb' 12 3

/-- rs1(w) = w[19:15]. -/
def rs1Of (w : Word) : RegField := w.extractLsb' 15 5

/-- rs2(w) = w[24:20]. -/
def rs2Of (w : Word) : RegField := w.extractLsb' 20 5

/-- funct7(w) = w[31:25]. -/
def funct7Of (w : Word) : BitVec 7 := w.extractLsb' 25 7

/-! ### Stage 1: the signature match (R40, R51) -/

/-- IsMac(w): the three signature fields have the configured values (R40). -/
def isMac (g : Signature) (w : Word) : Bool :=
  opcodeOf w == g.opcode && funct3Of w == g.funct3 && funct7Of w == g.funct7

/-- MAC_MASK: the 17 signature bits [31:25], [14:12], [6:0] (R40). -/
def macMask : Word := 0xFE00707F

/-- MAC_MATCH (R40). -/
def macMatch (g : Signature) : Word :=
  BitVec.ofNat 32 (g.funct7.toNat * 2 ^ 25 + g.funct3.toNat * 2 ^ 12 + g.opcode.toNat)

/-! ### Stage 2: the register-field extractor (R52) -/

/-- The triple of register fields carved from a word. -/
structure RegFields where
  rd : RegField
  rs1 : RegField
  rs2 : RegField
  deriving DecidableEq, Repr

/-- Extract(w); the same formula on every word (R52). -/
def extractFields (w : Word) : RegFields := { rd := rdOf w, rs1 := rs1Of w, rs2 := rs2Of w }

/-! ### Stage 3: the Register Identifier resolver (R53) -/

/-- RegId(v) = v: from five bits of an instruction to the name of an architectural integer register (R53). -/
def resolveField (v : RegField) : RegId := ⟨v.toNat, v.isLt⟩

/-- The field value that names a register: the inverse of `resolveField`, used by the encoder (R38). -/
def fieldOf (r : RegId) : RegField := BitVec.ofNat 5 r.val

/-- The three resolved operands. -/
structure RegIds where
  dest : RegId
  src1 : RegId
  src2 : RegId
  deriving DecidableEq, Repr

/-- Resolve(d, a, b): one function for all three fields (R53, R54). -/
def resolve (f : RegFields) : RegIds :=
  { dest := resolveField f.rd, src1 := resolveField f.rs1, src2 := resolveField f.rs2 }

/-! ### Instruction Object construction (R56) and the decoder as a whole (R50) -/

/-- Construct(dest, src1, src2): the mnemonic and the operation class are fixed constants (R56, C1). -/
def construct (o : RegIds) : InstrObj :=
  { mnemonic := "mac", opclass := .intAlu, dest := o.dest, src1 := o.src1, src2 := o.src2 }

/-- The decoder's verdict (R50). -/
inductive DecodeResult where
  /-- The word is a mac word, with its Instruction Object. -/
  | mac (o : InstrObj)
  /-- The word is not this block's (R43). -/
  | notMac
  deriving DecidableEq, Repr

/-- Decode(w) (R50): reads the word and the signature parameters and nothing else (R57). -/
def decodeObj (g : Signature) (w : Word) : DecodeResult :=
  if isMac g w then .mac (construct (resolve (extractFields w))) else .notMac

/-- Why a word or a list of bytes is no instruction. -/
inductive DecodeReject where
  /-- The word fails the signature match (R43). -/
  | notMac (w : Word)
  /-- Fewer than IBYTES bytes are left: no Machine Word can be assembled (R35). -/
  | tooShort (n : Nat)
  deriving DecidableEq, Repr

/-- The instruction an Instruction Object stands for: its three identifiers (R39). -/
def instrOf (o : InstrObj) : Instr := .mac o.dest o.src1 o.src2

/-- The Instruction Object of an instruction. -/
def objOf : Instr → InstrObj
  | .mac rd rs1 rs2 => construct { dest := rd, src1 := rs1, src2 := rs2 }

/-- The decoder as the machine uses it: R50, with the rejection named. -/
def decode (g : Signature) (w : Word) : Except DecodeReject Instr :=
  match decodeObj g w with
  | .mac o => .ok (instrOf o)
  | .notMac => .error (.notMac w)

/-! ### Byte order (R28): the byte at the lowest address holds bits [7:0] -/

/-- The word whose bytes, lowest address first, are the arguments (R28). -/
def wordOfBytes (b0 b1 b2 b3 : Byte) : Word := b3 ++ b2 ++ b1 ++ b0

/-- Byte `k` of a word, `k` = 0 at the lowest address (R28). -/
def byteOfWord (w : Word) (k : Nat) : Byte := w.extractLsb' (8 * k) 8

/-- The bytes of a word, lowest address first (R28). -/
def bytesOfWord (w : Word) : List Byte :=
  [byteOfWord w 0, byteOfWord w 1, byteOfWord w 2, byteOfWord w 3]

/-- Decoding from a list of bytes: the instruction and the bytes after it. There is one length (R35). -/
def decodeBytes (g : Signature) : List Byte → Except DecodeReject (Instr × List Byte)
  | b0 :: b1 :: b2 :: b3 :: rest =>
    match decode g (wordOfBytes b0 b1 b2 b3) with
    | .ok i => .ok (i, rest)
    | .error e => .error e
  | short => .error (.tooShort short.length)

/-! ### The encoder (R38) -/

/-- EncodeMac(d, a, b) = MAC_FUNCT7 ++ b ++ a ++ MAC_FUNCT3 ++ d ++ MAC_OPCODE (R38). -/
def encodeMac (g : Signature) (d a b : RegId) : Word :=
  g.funct7 ++ fieldOf b ++ fieldOf a ++ g.funct3 ++ fieldOf d ++ g.opcode

/-- The word of an instruction. -/
def encode (g : Signature) : Instr → Word
  | .mac rd rs1 rs2 => encodeMac g rd rs1 rs2

/-- The bytes of an instruction as the instruction stream stores them (R28). -/
def encodeBytes (g : Signature) (i : Instr) : List Byte := bytesOfWord (encode g i)

/-- The instruction the decoder reads from an opcode-table word (bit 0 least significant, first word first), under the
default signature, which is the table's (R40). Bits from `nbits` up are 0; the first ILEN bits are the word (log 14). -/
def decodeTableWord (nbits w : Nat) : Option Instr :=
  match decodeBytes Config.defaultSig (bytesOfWord (BitVec.ofNat 32 (w % 2 ^ nbits))) with
  | .ok (i, _) => some i
  | .error _ => none

end Sys2Proof
end

