-- ==== Sys2Proof/Machine/Disassembler.lean ====
section
/-!
DEFINITION. The Disassembler (42_disassembler.md R80 to R85), the register-naming table REG_NAME (R82), and the assembler
that accepts exactly the Disassembler's text (30_encoding.md R45; the spec's decision D21, log 15). Trace only: nothing here reads or writes
the state (R83).
-/

namespace Sys2Proof.Machine

/-- name(i) = "x" ++ decimal(i): the naming table of this hardware (R82, R95, D21). -/
def regName (r : RegId) : String := "x" ++ Nat.repr r.val

/-- Disassemble(i) with the naming table as an argument, since REG_NAME is an external, immutable table (R80, R82). -/
def disassembleWith (name : RegId → String) (o : InstrObj) : String :=
  o.mnemonic ++ " " ++ name o.dest ++ ", " ++ name o.src1 ++ ", " ++ name o.src2

/-- `disassemble(instructionObject, programCounter)`: the second argument is accepted and ignored (R84, R97, C2). -/
def disassemble {n : Nat} (o : InstrObj) (_pc : BitVec n) : String :=
  disassembleWith regName o

/-- What follows `lit` at the front of `text`, if `lit` stands there. -/
def stripLit : List Char → List Char → Option (List Char)
  | [], text => some text
  | _ :: _, [] => none
  | c :: lit, t :: text => if c = t then stripLit lit text else none

/-- The register a name stands for (the naming table read backwards; it is injective, R82). -/
def regOfName (name : List Char) : Option RegId :=
  (List.finRange 32).find? fun r => (regName r).toList == name

/-- Assembles `mac <rd>, <rs1>, <rs2>`: lower case, one space after the mnemonic, a comma and one space between
operands, nothing else (R45, R81). -/
def assemble (text : String) : Option Instr := do
  let t ← stripLit "mac ".toList text.toList
  let rd ← regOfName (t.takeWhile (· ≠ ','))
  let t ← stripLit ", ".toList (t.dropWhile (· ≠ ','))
  let rs1 ← regOfName (t.takeWhile (· ≠ ','))
  let t ← stripLit ", ".toList (t.dropWhile (· ≠ ','))
  let rs2 ← regOfName t
  some (.mac rd rs1 rs2)

/-- The word the text assembles to (R45). -/
def assembleWord (g : Signature) (text : String) : Option Word :=
  (assemble text).map (encode g)

end Sys2Proof.Machine
end

