-- ==== Sys2Proof/Machine/State.lean ====
section
/-!
DEFINITION. The state (10_state.md, 70_reset_and_hazards.md R126, R128, R134), the faults of the harness (60_exceptions.md
R107), the refusal, the launch (R128) and reset.
-/

namespace Sys2Proof.Machine

/-- The harness outcome while no fault ended the run (R126, R136). A fault is the step's own `.fault` result (log 13). -/
inductive RunOutcome where
  /-- No fault recorded, not halted: the value after reset (R126). -/
  | running
  /-- A step began with pc = END (R136): the run is over, successfully. -/
  | halted
  deriving DecidableEq, Repr

/-- The whole state. `x` and `pc` are the Machine State of 10_state.md. `cfg` and `prog` are what the launch supplies (R128);
no step changes them (R34). -/
structure State where
  /-- The configuration record (R5). -/
  cfg : Cfg
  /-- The program: Machine Words at PROG_BASE + 4k (R134). -/
  prog : List Word
  /-- The register file: NREGS = 32 registers of XLEN bits (R10). Read and written through Ops.lean only (R12, R13). -/
  x : Vector (BitVec cfg.XLEN) 32
  /-- The program counter, PCLEN bits: the address of the next instruction to execute (R15). -/
  pc : BitVec cfg.PCLEN
  /-- The harness outcome (R126). -/
  outcome : RunOutcome
  deriving DecidableEq, Repr

/-- The three faults of the harness step (R107): terminal and precise (R111). The recorded `pc` is its unsigned value. -/
inductive Fault where
  /-- Raised by fetch when `pc mod 4 ≠ 0` (R107 code 1, R135; D11). Safe: the model stops. -/
  | fetchMisaligned (pc : Nat)
  /-- Raised by fetch when the aligned `pc` is no address of a program word and not the end-of-run address (R107 code 2,
  R135; D18). Safe: the model stops. -/
  | fetchOutOfProgram (pc : Nat)
  /-- Raised by the harness when the word fetched at `pc` is not a mac word (R107 code 3, R43; D9). Safe: the model stops
  where a larger processor would run another instruction. -/
  | unrecognizedWord (pc : Nat) (w : Word)
  deriving DecidableEq, Repr

/-- A step with no meaning. No arm of `exec` answers with it: the one instruction has its meaning. Safe. -/
inductive Refusal where
  /-- Would be raised by `exec` for an instruction without a meaning; raised by nothing in this model. Safe. -/
  | notModelled (mnemonic : String)
  deriving DecidableEq, Repr

/-- The launch state (R126, R128): any configuration, program and register values; pc = RESET_PC = PROG_BASE. -/
def State.launch (c : Cfg) (prog : List Word) (x : Vector (BitVec c.XLEN) 32) : State :=
  { cfg := c, prog := prog, x := x, pc := BitVec.ofNat c.PCLEN c.progBase, outcome := .running }

/-- The machine right after reset with nothing placed: the launch of the default configuration with the empty program.
Register values are 0 (DESIGN CHOICE, unsafe, log 3: the spec leaves x1 .. x31 unspecified, R20). -/
def State.reset : State :=
  State.launch Config.default [] (Vector.replicate 32 0)

end Sys2Proof.Machine
end

