-- ==== Sys2Proof/Machine/Ops.lean ====
section
/-!
DEFINITION. The named operations over registers and the program counter: the contracts the block consumes (45_interfaces.md
R92 to R94). Taking an exception and returning from one have no operation here: the hardware has no trap entry and no trap
return (60_exceptions.md R111, R112); harness faults are terminal outcomes of the step. There is no data memory (R26); the
instruction stream is read in Program.lean.
-/

namespace Sys2Proof.Machine

/-- The register file's read: the zero register reads 0, any other register its entry (R12). -/
def regFileRead {n : Nat} (x : Vector (BitVec n) 32) (r : RegId) : BitVec n :=
  if Config.zeroReg = some r then 0 else x[r.val]

/-- The register file's write: discarded for the zero register, else only entry `r` changes (R13). -/
def regFileWrite {n : Nat} (x : Vector (BitVec n) 32) (r : RegId) (v : BitVec n) : Vector (BitVec n) 32 :=
  if Config.zeroReg = some r then x else x.set r.val v

/-- `x[i]`: the register-file read contract (R12, R92). -/
def State.readReg (s : State) (r : RegId) : BitVec s.cfg.XLEN := regFileRead s.x r

/-- `x[i] <- v`: the register-file write contract (R13, R93). -/
def State.writeReg (s : State) (r : RegId) (v : BitVec s.cfg.XLEN) : State :=
  { s with x := regFileWrite s.x r v }

/-- `currentAddress()` (R94). -/
def State.currentAddress (s : State) : BitVec s.cfg.PCLEN := s.pc

/-- `nextSequentialAddress(a)` = trunc_PCLEN(a + IBYTES) (R16, R94); it wraps at the top (R17, D8; UNVERIFIED, log 8). -/
def nextSequentialAddress {n : Nat} (a : BitVec n) : BitVec n :=
  BitVec.ofNat n (a.toNat + Config.IBYTES)

/-- `setAddress(a)`: pc <- a (R94). -/
def State.setAddress (s : State) (a : BitVec s.cfg.PCLEN) : State := { s with pc := a }

/-- The unsigned value of `x[r]`, as the spec writes values (R6). -/
def State.xval (s : State) (r : RegId) : Nat := (s.readReg r).toNat

/-- The unsigned value of the program counter (R6). -/
def State.pcval (s : State) : Nat := s.currentAddress.toNat

end Sys2Proof.Machine
end

