-- ==== Sys2Proof/Machine/Operands.lean ====
section
/-!
DEFINITION. Operand forms (30_encoding.md R39): the only form is a register named by a 5-bit field. The three reads of a
`mac` (41_mac_execute.md R66), all of the state before the write (R67).
-/

namespace Sys2Proof.Machine

/-- The pre-execution values of the three operands. -/
structure Operands (n : Nat) where
  /-- x[src1]. -/
  a : BitVec n
  /-- x[src2]. -/
  b : BitVec n
  /-- x[dest], read before it is overwritten. -/
  d : BitVec n
  deriving DecidableEq, Repr

/-- The three register reads of the Executor, against the state it was called with (R66). -/
def readOperands (o : InstrObj) (s : State) : Operands s.cfg.XLEN :=
  { a := s.readReg o.src1, b := s.readReg o.src2, d := s.readReg o.dest }

end Sys2Proof.Machine
end

