-- ==== Sys2Proof/Machine/Mac.lean ====
section
/-!
DEFINITION. The one instruction family: `mac` (41_mac_execute.md R65 to R77), the Executor behind it (45_interfaces.md R96).
-/

namespace Sys2Proof.Machine

/-- The completion signal of `execute` (R8, R96). The fault component is the common shape of the simulator's interface and
is never present for `mac` (R74, C3). -/
inductive Completion where
  | noFault
  | fault (r : Fault)
  deriving DecidableEq, Repr

/-- trunc_XLEN(d + a * b): the exact integer reduced modulo 2^n (R65, R70). No saturation, no trap. -/
def macResult {n : Nat} (d a b : BitVec n) : BitVec n :=
  BitVec.ofNat n (d.toNat + a.toNat * b.toNat)

/-- ExecMac(i, s) (R65): three reads of the old state, one register write, one pc update, NoFault. -/
def execute (o : InstrObj) (s : State) : State × Completion :=
  let p := readOperands o s
  let s₁ := s.writeReg o.dest (macResult p.d p.a p.b)
  (s₁.setAddress (nextSequentialAddress s₁.currentAddress), .noFault)

/-- The outcome of a step from the Executor's answer (R137). -/
def complete : State × Completion → Host.Outcome State Fault Refusal
  | (s, .noFault) => .next s
  | (_, .fault r) => .fault r

/-- The meaning of `mac rd, rs1, rs2`: the Executor on its Instruction Object (R65, R77). -/
def execMac (rd rs1 rs2 : RegId) (s : State) : Host.Outcome State Fault Refusal :=
  complete (execute (construct { dest := rd, src1 := rs1, src2 := rs2 }) s)

end Sys2Proof.Machine
end

