-- ==== Sys2Proof/Machine/Dispatch.lean ====
section
/-! DEFINITION. One arm per constructor of Instr; every instruction has its meaning. -/

namespace Sys2Proof.Machine

def exec (i : Instr) (s : State) : Host.Outcome State Fault Refusal :=
  match i with
  | .mac rd rs1 rs2 => Sys2Proof.Machine.execMac rd rs1 rs2 s

end Sys2Proof.Machine
end

