-- ==== Sys2Proof/Machine/Program.lean ====
section
/-!
DEFINITION. The instruction stream of the harness (20_memory.md R25 to R31, 70_reset_and_hazards.md R134, R135): words at
PROG_BASE + 4k, fetch, the byte view (R28), and placing a word where the next fetch reads. There is no store and no data
memory (R26): nothing a step does writes this space (R34).
-/

namespace Sys2Proof.Machine

/-- END = PROG_BASE + 4 * len(prog): the end-of-run address (R134). -/
def State.endAddr (s : State) : Nat := s.cfg.progBase + Config.IBYTES * s.prog.length

/-- The program word that covers address `a`, if `a` lies in the program (R31, R134). -/
def State.wordAt (s : State) (a : Nat) : Option Word :=
  if s.cfg.progBase ≤ a ∧ a < s.endAddr then s.prog[(a - s.cfg.progBase) / Config.IBYTES]? else none

/-- Fetch(a) (R135): alignment is tested first, then the range (R108). It reads only the program and changes nothing. -/
def State.fetch (s : State) (a : Nat) : Except Fault Word :=
  if a % Config.IBYTES ≠ 0 then .error (.fetchMisaligned a)
  else match s.wordAt a with
    | some w => .ok w
    | none => .error (.fetchOutOfProgram a)

/-- The byte at address `a` of the instruction stream, little-endian (R28); `none` where nothing is mapped (R31). -/
def State.byteAt (s : State) (a : Nat) : Option Byte :=
  (s.wordAt a).map fun w => byteOfWord w ((a - s.cfg.progBase) % Config.IBYTES)

/-- The word at `a` assembled from four bytes, `M[a+3] ++ M[a+2] ++ M[a+1] ++ M[a]` (R28). -/
def State.fetchBytes (s : State) (a : Nat) : Option Word := do
  let b0 ← s.byteAt a
  let b1 ← s.byteAt (a + 1)
  let b2 ← s.byteAt (a + 2)
  let b3 ← s.byteAt (a + 3)
  some (wordOfBytes b0 b1 b2 b3)

/-- The bytes of words placed from address `a` up, as address and byte pairs. -/
def imageFrom (a : Nat) : List Word → List Host.Cell
  | [] => []
  | w :: ws =>
    (a, byteOfWord w 0) :: (a + 1, byteOfWord w 1) :: (a + 2, byteOfWord w 2) :: (a + 3, byteOfWord w 3)
      :: imageFrom (a + 4) ws

/-- The whole mapped memory as a list of cells: the program and nothing else (R31). -/
def State.image (s : State) : List Host.Cell := imageFrom s.cfg.progBase s.prog

/-- The canonical form of a list of cells: addresses strictly rising. An address not listed is unmapped (R31), so no entry
can equal what an unlisted address reads as. -/
def Memory.wf : List Host.Cell → Bool
  | [] => true
  | [_] => true
  | c :: c' :: cs => decide (c.1 < c'.1) && Memory.wf (c' :: cs)

/-- The byte a list of cells holds at an address. -/
def Memory.read (m : List Host.Cell) (a : Nat) : Option Byte := (m.find? fun c => c.1 == a).map Prod.snd

/-- The state with `w` in the instruction stream where the next step fetches, the run going on: what a launch does for a
program (R128), as a function (log 7). An aligned pc inside the program or at its end keeps everything else; any other pc
gets a one-word program at the pc rounded down to a word. -/
def State.placeWord (s : State) (w : Word) : State :=
  let a := s.pcval
  let k := (a - s.cfg.progBase) / Config.IBYTES
  if a % Config.IBYTES = 0 ∧ s.cfg.progBase ≤ a ∧ a ≤ s.endAddr then
    { s with prog := s.prog.take k ++ w :: s.prog.drop (k + 1), outcome := .running }
  else
    { s with
      cfg := { s.cfg with progBase := a - a % Config.IBYTES }
      prog := [w]
      x := s.x
      pc := BitVec.ofNat s.cfg.PCLEN (a - a % Config.IBYTES)
      outcome := .running }

end Sys2Proof.Machine
end

