-- ==== Sys2Proof/Machine/Harness.lean ====
section
/-!
DEFINITION. The harness around the block (70_reset_and_hazards.md R134 to R138): end of run, the next instruction, the step,
and the trace texts a model may produce as a by-product (R87).
-/

namespace Sys2Proof.Machine

/-- A step begins with pc = END (R136). -/
def State.atEnd (s : State) : Bool := s.pcval == s.endAddr

/-- Halted: the Machine State as it is, the outcome recorded (R136). -/
def State.halt (s : State) : State := { s with outcome := .halted }

/-- Fetch and decode at pc (R137): the instruction, or the fault that ends the step. -/
def State.nextInstr (s : State) : Except Fault Instr :=
  match s.fetch s.pcval with
  | .error f => .error f
  | .ok w =>
    match decode s.cfg.sig w with
    | .ok i => .ok i
    | .error _ => .error (.unrecognizedWord s.pcval w)

/-- Step(s) (R137). A halted run is over and stays as it is (DESIGN CHOICE, unsafe, log 6). -/
def harnessStep (s : State) : Host.Outcome State Fault Refusal :=
  match s.outcome with
  | .halted => .next s
  | .running =>
    if s.atEnd then .next s.halt
    else match s.nextInstr with
      | .error f => .fault f
      | .ok i => exec i s

/-- The codes of the harness faults (R107). -/
def Fault.code : Fault → Nat
  | .fetchMisaligned _ => 1
  | .fetchOutOfProgram _ => 2
  | .unrecognizedWord _ _ => 3

/-- The text of the instruction the next step executes, if it executes one (R87, R97). -/
def State.traceText (s : State) : Option String :=
  match s.outcome, s.atEnd, s.nextInstr with
  | .running, false, .ok i => some (disassemble (objOf i) s.pc)
  | _, _, _ => none

/-- The texts of the instructions executed in `k` steps (R87): a by-product, no claim depends on it. -/
def traceTexts : Nat → State → List String
  | 0, _ => []
  | k + 1, s =>
    match s.traceText, harnessStep s with
    | some t, .next s' => t :: traceTexts k s'
    | _, _ => []

end Sys2Proof.Machine
end

