-- ==== Sys2Proof/Machine/Step.lean ====
section
/-! DEFINITION. The machine's step (R137) and the placing of a word where it fetches; both only call Harness.lean and Program.lean. -/

namespace Sys2Proof.Machine

/-- One step of the harness (R137). -/
def step (s : State) : Host.Outcome State Fault Refusal := harnessStep s

/-- `s` with the word of an opcode-table row stored where `step` fetches its next instruction (log 7). The instruction is
one word (R35): bits from `nbits` up are 0. -/
def State.withFetchWord (s : State) (nbits w : Nat) : State :=
  s.placeWord (BitVec.ofNat 32 (w % 2 ^ nbits))

end Sys2Proof.Machine
end

