-- ==== Sys2Proof/Machine/Ports.lean ====
section
/-!
DEFINITION. The port-level reading of the block (45_interfaces.md R98 to R100): a combinational function from input ports to
output ports, and one transaction of it against the external register file and program counter. It adds no behaviour to the
contracts (R98); Certificates/Slice0/Obligations.lean states that it agrees with `exec`.
-/

namespace Sys2Proof.Machine

/-- The input ports of R98. -/
structure PortsIn (c : Cfg) where
  /-- instr_word. -/
  instrWord : Word
  /-- instr_valid. -/
  instrValid : Bool
  /-- rf_rdata0 = x[src1]. -/
  rfRdata0 : BitVec c.XLEN
  /-- rf_rdata1 = x[src2]. -/
  rfRdata1 : BitVec c.XLEN
  /-- rf_rdata2 = x[dest]. -/
  rfRdata2 : BitVec c.XLEN
  /-- pc_cur. -/
  pcCur : BitVec c.PCLEN
  deriving DecidableEq, Repr

/-- The output ports of R98 that depend on the word alone. -/
structure DecodePorts where
  /-- dec_dest, dec_src1, dec_src2. -/
  dec : RegIds
  /-- dec_opclass. -/
  decOpclass : OpClass
  /-- rf_raddr0 = src1. -/
  rfRaddr0 : RegId
  /-- rf_raddr1 = src2. -/
  rfRaddr1 : RegId
  /-- rf_raddr2 = dest. -/
  rfRaddr2 : RegId
  /-- dis_text, trace only. -/
  disText : String
  deriving DecidableEq, Repr

/-- The output ports of R98 that the datapath drives. -/
structure DatapathPorts (c : Cfg) where
  /-- rf_wen. -/
  rfWen : Bool
  /-- rf_waddr. -/
  rfWaddr : RegId
  /-- rf_wdata. -/
  rfWdata : BitVec c.XLEN
  /-- pc_next. -/
  pcNext : BitVec c.PCLEN
  /-- pc_wen. -/
  pcWen : Bool
  /-- done. -/
  done : Bool
  /-- fault, constant 0. -/
  fault : Bool
  deriving DecidableEq, Repr

/-- All output ports. `dec` and `data` are absent where R98 says no other output is meaningful (log 16). -/
structure PortsOut (c : Cfg) where
  /-- is_mac. -/
  isMac : Bool
  /-- The decoder's outputs. -/
  dec : Option DecodePorts
  /-- The datapath's outputs. -/
  data : Option (DatapathPorts c)
  deriving DecidableEq, Repr

/-- The decoder's side of the block (R98, rows `dec_*`, `rf_raddr*`, `dis_text`). -/
def decodePorts (g : Signature) (w : Word) : Option DecodePorts :=
  match decodeObj g w with
  | .mac o =>
    some { dec := { dest := o.dest, src1 := o.src1, src2 := o.src2 }, decOpclass := o.opclass, rfRaddr0 := o.src1,
           rfRaddr1 := o.src2, rfRaddr2 := o.dest, disText := disassembleWith regName o }
  | .notMac => none

/-- The datapath's side of the block for an executed mac word (R98, rows `rf_w*`, `pc_*`, `done`, `fault`). -/
def datapathPorts {c : Cfg} (d : DecodePorts) (i : PortsIn c) : DatapathPorts c :=
  { rfWen := true, rfWaddr := d.dec.dest, rfWdata := macResult i.rfRdata2 i.rfRdata0 i.rfRdata1,
    pcNext := nextSequentialAddress i.pcCur, pcWen := true, done := true, fault := false }

/-- The block: outputs are a function of the inputs and of the signature parameters (R57, R77). Without `instr_valid` no
word is presented and nothing is executed (R98). -/
def block (c : Cfg) (i : PortsIn c) : PortsOut c :=
  let dec := if i.instrValid then decodePorts c.sig i.instrWord else none
  { isMac := isMac c.sig i.instrWord, dec := dec, data := dec.map fun d => datapathPorts d i }

/-- What the register file and the pc drive when word `w` is presented to the block in state `s` (R92, R94, R99). Before
the read addresses are known the read data are 0; no output depends on them then. -/
def drivePorts (s : State) (w : Word) : PortsIn s.cfg :=
  let d := decodePorts s.cfg.sig w
  let rdata (port : DecodePorts → RegId) : BitVec s.cfg.XLEN := (d.map fun p => s.readReg (port p)).getD 0
  { instrWord := w, instrValid := true, rfRdata0 := rdata (·.rfRaddr0), rfRdata1 := rdata (·.rfRaddr1),
    rfRdata2 := rdata (·.rfRaddr2), pcCur := s.currentAddress }

/-- The register file and the pc take the write and the pc update together (R99). -/
def latchPorts (s : State) (p : DatapathPorts s.cfg) : State :=
  { s with
    x := if p.rfWen then regFileWrite s.x p.rfWaddr p.rfWdata else s.x
    pc := if p.pcWen then p.pcNext else s.pc }

/-- One transaction (R99): the word is presented, the reads sampled, the write and the pc update made. `none` when the word
is not this block's. -/
def transaction (s : State) (w : Word) : Option State :=
  (block s.cfg (drivePorts s w)).data.map (latchPorts s)

end Sys2Proof.Machine
end

