-- ==== Sys2Proof/Safety.lean ====
section
/-!
DEFINITION. What claims are stated in (70_reset_and_hazards.md R138): runs, halting, faulting, the invariant of the harness,
and a straight line of instructions.
-/

namespace Sys2Proof.Machine

/-- `k` steps, stopping at the first fault (R138): the host's `Core.run` of this machine, written over State. -/
def runSteps : Nat → State → Host.Outcome State Fault Refusal
  | 0, s => .next s
  | k + 1, s =>
    match step s with
    | .next s' => runSteps k s'
    | .fault r => .fault r
    | .refused r => .refused r

/-- The run from `s` ends in Halted with final state `t` (R136, R138). -/
def HaltsWith (s t : State) : Prop :=
  ∃ k, runSteps k s = .next t ∧ t.outcome = .halted

/-- The run from `s` ends in the fault `r` (R111, R138). -/
def FaultsWith (s : State) (r : Fault) : Prop :=
  ∃ k, runSteps k s = .fault r

/-- A claim about a program (R138): every launch that meets `pre` halts in a state that meets `post`. -/
def Claim (pre post : State → Prop) : Prop :=
  ∀ c prog x, Cfg.launchOk c prog = true → pre (State.launch c prog x) →
    ∃ t, HaltsWith (State.launch c prog x) t ∧ post t

/-- The invariant of a harness run (R134, R136, R17): a legal launch, pc a word address between PROG_BASE and END, and
halted only at END. -/
structure State.Inv (s : State) : Prop where
  launchOk : s.cfg.launchOk s.prog = true
  aligned : s.pcval % 4 = 0
  above : s.cfg.progBase ≤ s.pcval
  below : s.pcval ≤ s.endAddr
  haltedAtEnd : s.outcome = .halted → s.pcval = s.endAddr

/-- Instructions executed one after another, each on the state the one before left (R129). -/
def execAll : List Instr → State → Host.Outcome State Fault Refusal
  | [], s => .next s
  | i :: is, s =>
    match exec i s with
    | .next s' => execAll is s'
    | .fault r => .fault r
    | .refused r => .refused r

end Sys2Proof.Machine
end

