-- ==== Sys2Proof/Certificates/Slice0/Obligations.lean ====
section
/-!
DEFINITION. The statements for the provers. Each docstring names the rule of spec/ it states and, where a clause rests on a
choice, whose choice it is. Values of registers and of the pc are read as unsigned numbers (R6).
-/

open Sys2Proof Sys2Proof.Machine

/-! ### Encoding and decoding -/

/-- R37: the six field extraction functions are the quotients and remainders of the spec, on all words; any triple of
register fields can be encoded. (Positions: the spec's decision D2.) -/
def Obligations.FieldExtractionIsQuotientAndRemainder : Prop :=
  (∀ w : Word,
    (opcodeOf w).toNat = w.toNat % 128 ∧
    (rdOf w).toNat = w.toNat / 2 ^ 7 % 32 ∧
    (funct3Of w).toNat = w.toNat / 2 ^ 12 % 8 ∧
    (rs1Of w).toNat = w.toNat / 2 ^ 15 % 32 ∧
    (rs2Of w).toNat = w.toNat / 2 ^ 20 % 32 ∧
    (funct7Of w).toNat = w.toNat / 2 ^ 25 % 128) ∧
  ∀ d a b : RegField, ∃ w : Word, rdOf w = d ∧ rs1Of w = a ∧ rs2Of w = b

/-- R38: the encoder's number, its fields, its signature, and that every mac word is the encoding of its own fields, under
every signature. -/
def Obligations.EncoderLayoutAndInverse : Prop :=
  (∀ (g : Signature) (d a b : RegId),
    (encodeMac g d a b).toNat =
      g.funct7.toNat * 2 ^ 25 + b.val * 2 ^ 20 + a.val * 2 ^ 15 + g.funct3.toNat * 2 ^ 12 + d.val * 2 ^ 7
        + g.opcode.toNat ∧
    (rdOf (encodeMac g d a b)).toNat = d.val ∧
    (rs1Of (encodeMac g d a b)).toNat = a.val ∧
    (rs2Of (encodeMac g d a b)).toNat = b.val ∧
    isMac g (encodeMac g d a b) = true) ∧
  (∀ (g : Signature) (w : Word), isMac g w = true →
    w = encodeMac g (resolveField (rdOf w)) (resolveField (rs1Of w)) (resolveField (rs2Of w))) ∧
  ∀ d a b : RegId,
    (encodeMac Config.defaultSig d a b).toNat = b.val * 0x100000 + a.val * 0x8000 + d.val * 0x80 + 0x0B

/-- R40: IsMac is the conjunction of the three signature fields and, equally, the mask test against MAC_MATCH; the mask and
the default match have the spec's values. -/
def Obligations.SignatureTestIsMaskTest : Prop :=
  (∀ (g : Signature) (w : Word),
    (isMac g w = true ↔ opcodeOf w = g.opcode ∧ funct3Of w = g.funct3 ∧ funct7Of w = g.funct7) ∧
    (isMac g w = true ↔ w &&& macMask = macMatch g)) ∧
  (∀ g : Signature,
    (macMatch g).toNat = g.funct7.toNat * 2 ^ 25 + g.funct3.toNat * 2 ^ 12 + g.opcode.toNat) ∧
  macMask = 0xFE00707F ∧
  Config.defaultSig = { opcode := 0b0001011, funct3 := 0b000, funct7 := 0b0000000 } ∧
  macMatch Config.defaultSig = 0x0000000B

/-- 30_encoding.md section 3 (R41, an inference the spec marks as derived): exactly 2^15 words are mac words, under every
signature. -/
def Obligations.ExactlyTwoToTheFifteenMacWords : Prop :=
  ∀ g : Signature, Nat.card { w : Word // isMac g w = true } = 2 ^ 15

/-- 95_test_vectors.md section 2.2: flipping one bit of a mac word leaves a mac word exactly when the bit belongs to a
register field. -/
def Obligations.OneBitFlipStaysMacExactlyInRegisterFields : Prop :=
  ∀ (g : Signature) (w : Word) (k : Nat), k < 32 → isMac g w = true →
    (isMac g (w ^^^ BitVec.twoPow 32 k) = true ↔ (7 ≤ k ∧ k < 12) ∨ (15 ≤ k ∧ k < 25))

/-- R50 and its two worked examples: the decoder is the signature match followed by extract, resolve and construct, and
NotMac on every other word. (The NotMac arm is the spec's decision D9.) -/
def Obligations.DecoderIsMatchExtractResolveConstruct : Prop :=
  (∀ (g : Signature) (w : Word),
    (isMac g w = true → decodeObj g w = .mac (construct (resolve (extractFields w)))) ∧
    (isMac g w = false → decodeObj g w = .notMac)) ∧
  decodeObj Config.defaultSig 0x0020818B =
    .mac { mnemonic := "mac", opclass := .intAlu, dest := 3, src1 := 1, src2 := 2 } ∧
  decodeObj Config.defaultSig 0x002081B3 = .notMac

/-- R53, and R54 (which the spec marks as derived from it): a register field resolves to the register of the same number; two values never to one register; each
operand comes from its own field only; x0 from the field value 0 only. -/
def Obligations.ResolverNamesEachRegisterOnce : Prop :=
  (∀ v : RegField, (resolveField v).val = v.toNat) ∧
  (∀ u v : RegField, resolveField u = resolveField v ↔ u = v) ∧
  (∀ v : RegField, resolveField v = 0 ↔ v = 0) ∧
  (∀ f f' : RegFields,
    ((resolve f).dest = (resolve f').dest ↔ f.rd = f'.rd) ∧
    ((resolve f).src1 = (resolve f').src1 ↔ f.rs1 = f'.rs1) ∧
    ((resolve f).src2 = (resolve f').src2 ↔ f.rs2 = f'.rs2)) ∧
  ∀ v : RegField, resolve ⟨v, v, v⟩ = ⟨resolveField v, resolveField v, resolveField v⟩

/-- R51, R52, R50: words written out from the spec decode to the instructions they stand for, or are not mac words. -/
def Obligations.SpecWordsDecodeAsWritten : Prop :=
  decode Config.defaultSig 0b0000000_00010_00001_000_00011_0001011 = .ok (.mac 3 1 2) ∧
  decode Config.defaultSig 0b0000000_11111_11111_000_11111_0001011 = .ok (.mac 31 31 31) ∧
  decode Config.defaultSig 0b0000000_00000_00000_000_00000_0001011 = .ok (.mac 0 0 0) ∧
  decode Config.defaultSig 0x0000100B = .error (.notMac 0x0000100B) ∧
  decode Config.defaultSig 0x0200000B = .error (.notMac 0x0200000B) ∧
  decode Config.defaultSig 0x0000000A = .error (.notMac 0x0000000A)

/-- R59, both halves: decoding an encoded instruction gives its Instruction Object, and a word that decodes is the encoding
of what it decodes to. Under every signature, every operand value. (The spec marks R59 as derived.) -/
def Obligations.DecodeAndEncodeAreInverse : Prop :=
  (∀ (g : Signature) (d a b : RegId),
    decodeObj g (encodeMac g d a b) =
      .mac { mnemonic := "mac", opclass := .intAlu, dest := d, src1 := a, src2 := b }) ∧
  ∀ (g : Signature) (w : Word) (o : InstrObj),
    decodeObj g w = .mac o → encodeMac g o.dest o.src1 o.src2 = w

/-- R59 over the bytes of the instruction stream (R28, R35): decoding the bytes of any well-formed instruction gives it back
with the bytes after it, and bytes that decode are the instruction's bytes followed by the rest. -/
def Obligations.ByteDecoderInvertsByteEncoder : Prop :=
  (∀ (g : Signature) (i : Instr) (rest : List Byte), i.wf = true →
    decodeBytes g (encodeBytes g i ++ rest) = .ok (i, rest)) ∧
  ∀ (g : Signature) (bs rest : List Byte) (i : Instr),
    decodeBytes g bs = .ok (i, rest) → bs = encodeBytes g i ++ rest

/-! ### The register file and the program counter -/

/-- R12: the register-file read contract. -/
def Obligations.RegisterReadContract : Prop :=
  ∀ (s : State) (r : RegId),
    (r = 0 → s.readReg r = 0) ∧ (r ≠ 0 → s.readReg r = s.x[r.val])

/-- R13: the register-file write contract. A write to x0 is discarded; any other write changes that entry, no other register
and not the pc. -/
def Obligations.RegisterWriteContract : Prop :=
  ∀ (s : State) (r : RegId) (v : BitVec s.cfg.XLEN),
    (r = 0 → s.writeReg r v = s ∧ (s.writeReg r v).xval r = 0) ∧
    (r ≠ 0 → (s.writeReg r v).xval r = v.toNat) ∧
    (∀ q, q ≠ r → (s.writeReg r v).xval q = s.xval q) ∧
    (s.writeReg r v).pcval = s.pcval

/-- R16 and R68: every instruction moves the pc by exactly one instruction width modulo 2^PCLEN, whatever its operands and
its result. -/
def Obligations.PcAdvancesByOneInstructionWidth : Prop :=
  ∀ (i : Instr) (s : State), ∃ t, exec i s = .next t ∧ t.pcval = (s.pcval + 4) % 2 ^ s.cfg.PCLEN

/-- R17: the block computes the successor of any pc, aligned or not, keeping pc mod 4; at the top of the address space it
wraps to 0 (the spec's decision D8); the harness faults on a misaligned pc (the spec's decision D11). -/
def Obligations.PcAlignmentIsKeptAndPcWraps : Prop :=
  (∀ (i : Instr) (s : State), ∃ t, exec i s = .next t ∧ t.pcval % 4 = s.pcval % 4 ∧
    (s.pcval = 2 ^ s.cfg.PCLEN - 4 → t.pcval = 0)) ∧
  ∀ s : State, s.outcome = .running → s.pcval ≠ s.endAddr → s.pcval % 4 ≠ 0 →
    step s = .fault (.fetchMisaligned s.pcval)

/-! ### The mac instruction -/

/-- R65: `mac` completes in every state with every operand, answering the state the spec's pseudocode gives: the exact
integer sum reduced modulo 2^XLEN in the destination (discarded for x0), pc + 4, and nothing else. -/
def Obligations.MacCompletesWithItsResult : Prop :=
  ∀ (rd rs1 rs2 : RegId) (s : State), ∃ t, exec (.mac rd rs1 rs2) s = .next t ∧
    t.xval rd = (if rd = 0 then 0 else (s.xval rd + s.xval rs1 * s.xval rs2) % 2 ^ s.cfg.XLEN) ∧
    (∀ r, r ≠ rd → t.xval r = s.xval r) ∧
    t.pcval = (s.pcval + 4) % 2 ^ s.cfg.PCLEN ∧
    t.cfg = s.cfg ∧ t.prog = s.prog ∧ t.outcome = s.outcome

/-- R65's worked example, in every configuration and at every pc: `mac x3, x1, x2` from x1=3, x2=4, x3=10. -/
def Obligations.SourceScenario : Prop :=
  ∀ s : State, s.xval 1 = 3 → s.xval 2 = 4 → s.xval 3 = 10 →
    ∃ t, exec (.mac 3 1 2) s = .next t ∧ t.xval 3 = 22 ∧ t.xval 1 = 3 ∧ t.xval 2 = 4 ∧
      t.pcval = (s.pcval + 4) % 2 ^ s.cfg.PCLEN ∧ disassemble (objOf (.mac 3 1 2)) s.pc = "mac x3, x1, x2"

/-- R74, the frame of `mac`: the completion signal is NoFault; every register but the destination, the configuration, the
program, the harness outcome and every byte of the instruction stream are unchanged (there is no other memory, R26). -/
def Obligations.MacFrame : Prop :=
  ∀ (rd rs1 rs2 : RegId) (s t : State), exec (.mac rd rs1 rs2) s = .next t →
    (execute (objOf (.mac rd rs1 rs2)) s).2 = .noFault ∧
    (t.xval rd = if rd = 0 then 0 else (s.xval rd + s.xval rs1 * s.xval rs2) % 2 ^ s.cfg.XLEN) ∧
    (∀ r, r ≠ rd → t.xval r = s.xval r) ∧
    t.pcval = (s.pcval + 4) % 2 ^ s.cfg.PCLEN ∧
    t.cfg = s.cfg ∧ t.prog = s.prog ∧ t.outcome = s.outcome ∧
    ∀ a : Nat, t.byteAt a = s.byteAt a

/-- R67: every pattern of equal operands uses the pre-execution values. A destination x0 reads 0 in every pattern. -/
def Obligations.AliasedOperandsUseOldValues : Prop :=
  ∀ s : State,
    (∀ r, ∃ t, exec (.mac r r r) s = .next t ∧ t.xval r = (s.xval r + s.xval r * s.xval r) % 2 ^ s.cfg.XLEN) ∧
    (∀ r q, r ≠ q → ∃ t, exec (.mac r r q) s = .next t ∧
      t.xval r = (s.xval r + s.xval r * s.xval q) % 2 ^ s.cfg.XLEN) ∧
    (∀ r q, r ≠ q → ∃ t, exec (.mac r q r) s = .next t ∧
      t.xval r = (s.xval r + s.xval q * s.xval r) % 2 ^ s.cfg.XLEN) ∧
    (∀ r q, r ≠ q → ∃ t, exec (.mac r q q) s = .next t ∧
      t.xval r = if r = 0 then 0 else (s.xval r + s.xval q * s.xval q) % 2 ^ s.cfg.XLEN) ∧
    ∀ r p q, r ≠ p → r ≠ q → p ≠ q → ∃ t, exec (.mac r p q) s = .next t ∧
      t.xval r = if r = 0 then 0 else (s.xval r + s.xval p * s.xval q) % 2 ^ s.cfg.XLEN

/-- R73: with x0 as the destination or as a source nothing changes but the pc: the next state is the old one with the pc
advanced. -/
def Obligations.ZeroRegisterFormsOnlyAdvancePc : Prop :=
  ∀ (s : State) (r q : RegId),
    exec (.mac 0 r q) s = .next (s.setAddress (nextSequentialAddress s.pc)) ∧
    exec (.mac r 0 q) s = .next (s.setAddress (nextSequentialAddress s.pc)) ∧
    exec (.mac r q 0) s = .next (s.setAddress (nextSequentialAddress s.pc)) ∧
    (s.setAddress (nextSequentialAddress s.pc)).xval 0 = 0

/-- R70: the result is the low n bits of the exact integer, the same as n-bit multiply and add, and the same as the low half
of the 2n-bit product plus the accumulator. -/
def Obligations.ResultIsLowBitsOfExactSum : Prop :=
  ∀ (n : Nat) (d a b : BitVec n),
    (macResult d a b).toNat = (d.toNat + a.toNat * b.toNat) % 2 ^ n ∧
    macResult d a b = d + a * b ∧
    macResult d a b = d + (a.setWidth (2 * n) * b.setWidth (2 * n)).setWidth n

/-- R71: reading the operands as signed numbers gives the same result. -/
def Obligations.SignednessDoesNotMatter : Prop :=
  ∀ (n : Nat) (d a b : BitVec n),
    BitVec.ofInt n (d.toInt + a.toInt * b.toInt) = macResult d a b

/-- R72: the twelve corner rows, at every width from 2 up; `m` is all ones (signed -1), `t` the signed minimum. -/
def Obligations.CornerRows : Prop :=
  ∀ n : Nat, 2 ≤ n → ∀ m t : BitVec n, m = BitVec.allOnes n → t = BitVec.twoPow n (n - 1) → ∀ d a b : BitVec n,
    macResult (0 : BitVec n) 0 0 = 0 ∧
    macResult d 0 b = d ∧
    macResult d a 0 = d ∧
    macResult d 1 b = BitVec.ofNat n (d.toNat + b.toNat) ∧
    macResult m 1 1 = 0 ∧
    macResult 0 m m = 1 ∧
    macResult m m m = 0 ∧
    macResult 0 t 2 = 0 ∧
    macResult 1 t 2 = 1 ∧
    macResult 5 t m = t + 5 ∧
    macResult t t t = t ∧
    macResult (m - 1) 2 t = m - 1

/-- 95_test_vectors.md P3 ("as rule R70 implies"): the low bits of a wide result are the narrow result of the low bits. -/
def Obligations.NarrowResultIsLowPartOfWideResult : Prop :=
  ∀ (n k : Nat), k ≤ n → ∀ d a b : BitVec n,
    (macResult d a b).setWidth k = macResult (d.setWidth k) (a.setWidth k) (b.setWidth k)

/-- R66 and R77: the result and the successor pc depend on the three named registers and the pc, and on nothing else of
the state: two states of one width that agree there give agreeing results. -/
def Obligations.MacDependsOnlyOnItsOperands : Prop :=
  ∀ (rd rs1 rs2 : RegId) (s s' : State), s.cfg.xlen = s'.cfg.xlen →
    s.xval rd = s'.xval rd → s.xval rs1 = s'.xval rs1 → s.xval rs2 = s'.xval rs2 → s.pcval = s'.pcval →
    ∃ t t', exec (.mac rd rs1 rs2) s = .next t ∧ exec (.mac rd rs1 rs2) s' = .next t' ∧
      t.xval rd = t'.xval rd ∧ t.pcval = t'.pcval

/-- R74's first sentence, for the interface of R96: `execute` answers NoFault for every Instruction Object and every state,
and `exec` is `execute` on the instruction's own object. (Its effect on the state is MacCompletesWithItsResult.) -/
def Obligations.ExecuteNeverFaults : Prop :=
  (∀ (o : InstrObj) (s : State), (execute o s).2 = .noFault) ∧
  ∀ (i : Instr) (s : State), exec i s = .next (execute (objOf i) s).1

/-- R131: of two instructions in a row the second reads what the first wrote. -/
def Obligations.SecondMacSeesFirstMacsWrite : Prop :=
  ∀ (d₁ a₁ b₁ d₂ a₂ b₂ : RegId) (s : State) (v : RegId → Nat),
    (∀ r, v r = if r = d₁ ∧ r ≠ 0 then (s.xval d₁ + s.xval a₁ * s.xval b₁) % 2 ^ s.cfg.XLEN else s.xval r) →
    ∃ t, execAll [.mac d₁ a₁ b₁, .mac d₂ a₂ b₂] s = .next t ∧
      t.xval d₂ = (if d₂ = 0 then 0 else (v d₂ + v a₂ * v b₂) % 2 ^ s.cfg.XLEN) ∧
      ∀ r, r ≠ d₂ → t.xval r = v r

/-- The accumulator idiom (R129, R70; the general claim of 95_test_vectors.md P2): a straight line of `mac` instructions
into one register that is none of the sources adds up all the products, modulo 2^XLEN, and changes nothing else but the pc. (A destination x0 is ZeroRegisterFormsOnlyAdvancePc; sources equal to the destination are
AliasedOperandsUseOldValues and SecondMacSeesFirstMacsWrite.) -/
def Obligations.StraightLineAccumulatesDotProduct : Prop :=
  ∀ (rd : RegId) (ps : List (RegId × RegId)) (s : State), rd ≠ 0 → (∀ p ∈ ps, p.1 ≠ rd ∧ p.2 ≠ rd) →
    ∃ t, execAll (ps.map fun p => .mac rd p.1 p.2) s = .next t ∧
      t.xval rd = (s.xval rd + (ps.map fun p => s.xval p.1 * s.xval p.2).sum) % 2 ^ s.cfg.XLEN ∧
      (∀ r, r ≠ rd → t.xval r = s.xval r) ∧
      t.pcval = (s.pcval + 4 * ps.length) % 2 ^ s.cfg.PCLEN

/-! ### Text -/

/-- R82: the name of register i is "x" followed by i in decimal, and no two registers share a name. -/
def Obligations.RegisterNamesAreInjective : Prop :=
  (∀ r : RegId, regName r = "x" ++ Nat.repr r.val) ∧ ∀ r q : RegId, regName r = regName q → r = q

/-- R84: the text does not depend on the program counter, and two valid Instruction Objects with the same identifiers have
the same text. -/
def Obligations.DisassemblyIgnoresPc : Prop :=
  (∀ (o : InstrObj) (n : Nat) (p : BitVec n), disassemble o p = disassembleWith regName o) ∧
  ∀ o o' : InstrObj, o.wf = true → o'.wf = true → o.dest = o'.dest → o.src1 = o'.src1 → o.src2 = o'.src2 →
    disassembleWith regName o = disassembleWith regName o'

/-- R81: the canonical text is 14 to 17 characters long, both lengths occur, and it holds only lower-case letters, digits,
spaces and commas. -/
def Obligations.DisassemblyTextShape : Prop :=
  (∀ i : Instr,
    14 ≤ (disassembleWith regName (objOf i)).length ∧ (disassembleWith regName (objOf i)).length ≤ 17 ∧
    ∀ c ∈ (disassembleWith regName (objOf i)).toList,
      c = ' ' ∨ c = ',' ∨ c.isLower = true ∨ c.isDigit = true) ∧
  disassembleWith regName (objOf (.mac 0 0 0)) = "mac x0, x0, x0" ∧ "mac x0, x0, x0".length = 14 ∧
  disassembleWith regName (objOf (.mac 31 31 31)) = "mac x31, x31, x31" ∧ "mac x31, x31, x31".length = 17

/-- R85: decoding then disassembling a mac word renders exactly its register fields, at every pc, and assembling the text
gives the word back (the last a reading the spec marks as derived, on its decision D21). -/
def Obligations.DecodedTextShowsFieldsAndAssemblesBack : Prop :=
  ∀ (g : Signature) (w : Word), isMac g w = true →
    ∃ o, decodeObj g w = .mac o ∧ ∀ (n : Nat) (p : BitVec n),
      disassemble o p = "mac x" ++ Nat.repr (rdOf w).toNat ++ ", x" ++ Nat.repr (rs1Of w).toNat ++ ", x"
        ++ Nat.repr (rs2Of w).toNat ∧
      assembleWord g (disassemble o p) = some w

/-- R45 (that the assembler accepts the disassembly text is the spec's reading, D21; that it accepts nothing else is the
model's, log 15): a text assembles to an instruction exactly when it is that instruction's text. -/
def Obligations.AssemblerAcceptsExactlyTheCanonicalText : Prop :=
  (∀ (text : String) (i : Instr), assemble text = some i ↔ text = disassembleWith regName (objOf i)) ∧
  ∀ g : Signature, assembleWord g "mac x3, x1, x2" = some (encodeMac g 3 1 2)

/-! ### Ports -/

/-- R98 (the spec's own port reading, D19): the outputs of the block for a presented mac word, and none but `is_mac` that is
meaningful for any other word (absent there: the model's choice, log 16). -/
def Obligations.PortOutputsOfTheBlock : Prop :=
  ∀ (c : Cfg) (i : PortsIn c), i.instrValid = true →
    (block c i).isMac = isMac c.sig i.instrWord ∧
    (isMac c.sig i.instrWord = false → (block c i).dec = none ∧ (block c i).data = none) ∧
    (isMac c.sig i.instrWord = true → ∀ o : RegIds, o = resolve (extractFields i.instrWord) →
      (block c i).dec = some {
        dec := o, decOpclass := .intAlu, rfRaddr0 := o.src1, rfRaddr1 := o.src2, rfRaddr2 := o.dest,
        disText := disassembleWith regName (construct o) } ∧
      (block c i).data = some {
        rfWen := true, rfWaddr := o.dest,
        rfWdata := BitVec.ofNat c.XLEN (i.rfRdata2.toNat + i.rfRdata0.toNat * i.rfRdata1.toNat),
        pcNext := BitVec.ofNat c.PCLEN (i.pcCur.toNat + 4), pcWen := true, done := true, fault := false })

/-- R98, R99 (decision D19): one port-level transaction does to the state what the instruction does, for every word. (That
a word that is not mac gives no transaction, an absent value, is the model's choice, log 16.) -/
def Obligations.PortTransactionRefinesExec : Prop :=
  ∀ (s : State) (w : Word),
    (∀ i, decode s.cfg.sig w = .ok i → ∃ t, transaction s w = some t ∧ exec i s = .next t) ∧
    (isMac s.cfg.sig w = false → transaction s w = none)

/-! ### Fetch, the step and its faults -/

/-- R135: the three cases of Fetch, for every address and every launch. -/
def Obligations.FetchCases : Prop :=
  ∀ (s : State) (a : Nat),
    (a % 4 ≠ 0 → s.fetch a = .error (.fetchMisaligned a)) ∧
    (a % 4 = 0 → s.cfg.progBase ≤ a → a < s.endAddr →
      ∃ w, s.prog[(a - s.cfg.progBase) / 4]? = some w ∧ s.fetch a = .ok w) ∧
    (a % 4 = 0 → ¬(s.cfg.progBase ≤ a ∧ a < s.endAddr) → s.fetch a = .error (.fetchOutOfProgram a))

/-- R28 (decision D12): in a byte-addressed reading of the program the word at an aligned address is assembled
little-endian, and is the word fetched; the byte at the lowest address holds bits [7:0]. -/
def Obligations.FetchIsLittleEndian : Prop :=
  ∀ (s : State) (a : Nat) (w : Word), s.cfg.progBase % 4 = 0 → a % 4 = 0 → s.fetch a = .ok w →
    s.fetchBytes a = some w ∧ s.byteAt a = some (w.extractLsb' 0 8) ∧
    ∀ b0 b1 b2 b3, s.byteAt a = some b0 → s.byteAt (a + 1) = some b1 → s.byteAt (a + 2) = some b2 →
      s.byteAt (a + 3) = some b3 → w = b3 ++ b2 ++ b1 ++ b0

/-- R31, R134: the mapped memory written out as cells holds, at every address, the byte the instruction stream has there. -/
def Obligations.MemoryImageReadsAsTheProgram : Prop :=
  ∀ (s : State) (a : Nat), s.cfg.progBase % 4 = 0 → Memory.read s.image a = s.byteAt a

/-- R137, for a running harness: at END the step halts; a fetch fault is the step's; a word that is not mac faults; a decoded
instruction is executed, and its answer is the step's. (The harness is the spec's decision D18; that Halted is the state
`s.halt`, the same Machine State with the outcome recorded, is the model's choice, log 6.) -/
def Obligations.StepRunsTheDecodedInstruction : Prop :=
  ∀ s : State, s.outcome = .running →
    (s.pcval = s.endAddr → step s = .next s.halt) ∧
    (s.pcval ≠ s.endAddr →
      (∀ f, s.fetch s.pcval = .error f → step s = .fault f) ∧
      ∀ w, s.fetch s.pcval = .ok w →
        (decodeObj s.cfg.sig w = .notMac → step s = .fault (.unrecognizedWord s.pcval w)) ∧
        (∀ o, decodeObj s.cfg.sig w = .mac o → step s = .next (execute o s).1) ∧
        ∀ i, decode s.cfg.sig w = .ok i → step s = exec i s)

/-- R43 (decision D9): a word that is not a mac word is rejected by the decoder and ends the step in the fault that names it;
under the default signature the all-zeros and the all-ones word are such words. -/
def Obligations.NonMacWordIsNeverExecuted : Prop :=
  (∀ (s : State) (w : Word), isMac s.cfg.sig w = false →
    decodeObj s.cfg.sig w = .notMac ∧
    (s.outcome = .running → s.pcval ≠ s.endAddr → s.fetch s.pcval = .ok w →
      step s = .fault (.unrecognizedWord s.pcval w))) ∧
  isMac Config.defaultSig 0x00000000 = false ∧ isMac Config.defaultSig 0xFFFFFFFF = false

/-- R108, with the conditions and codes of R107 (decisions D9, D11, D16, D18): a running harness faults exactly under one of
three conditions, tested in this order; they exclude each other. -/
def Obligations.StepFaultsExactlyInOrder : Prop :=
  (∀ (s : State) (r : Fault), s.outcome = .running →
    (step s = .fault r ↔ s.pcval ≠ s.endAddr ∧
      ((s.pcval % 4 ≠ 0 ∧ r = .fetchMisaligned s.pcval) ∨
       (s.pcval % 4 = 0 ∧ ¬(s.cfg.progBase ≤ s.pcval ∧ s.pcval < s.endAddr) ∧ r = .fetchOutOfProgram s.pcval) ∨
       (s.pcval % 4 = 0 ∧ s.cfg.progBase ≤ s.pcval ∧ s.pcval < s.endAddr ∧
        ∃ w, s.prog[(s.pcval - s.cfg.progBase) / 4]? = some w ∧ isMac s.cfg.sig w = false ∧
          r = .unrecognizedWord s.pcval w)))) ∧
  ∀ (p : Nat) (w : Word),
    Fault.code (.fetchMisaligned p) = 1 ∧ Fault.code (.fetchOutOfProgram p) = 2 ∧
    Fault.code (.unrecognizedWord p w) = 3

/-- R136: a step of a running harness halts exactly when it begins with pc = END, and then the Machine State is as it was.
(Halted as a recorded outcome is the model's choice, log 6.) -/
def Obligations.HaltsExactlyAtEnd : Prop :=
  ∀ s : State, s.outcome = .running →
    (s.pcval = s.endAddr → step s = .next s.halt ∧ s.halt.pcval = s.pcval ∧ ∀ r, s.halt.xval r = s.xval r) ∧
    (∀ t, step s = .next t → (t.outcome = .halted ↔ s.pcval = s.endAddr))

/-- Every instruction of the model has its meaning: no step is refused. -/
def Obligations.StepIsNeverRefused : Prop :=
  ∀ (s : State) (m : Refusal), step s ≠ .refused m

/-! ### The whole machine -/

/-- R34, R134, R26: no step changes the program, the configuration or any byte of memory. -/
def Obligations.StepKeepsProgramAndConfiguration : Prop :=
  ∀ s t : State, step s = .next t →
    t.cfg = s.cfg ∧ t.prog = s.prog ∧ ∀ a : Nat, t.byteAt a = s.byteAt a

/-- R14, R69: a register changes in a step only if it is not x0 and the instruction executed names it as its destination;
it then holds that instruction's result. -/
def Obligations.RegisterChangesOnlyAsDestination : Prop :=
  ∀ (s t : State) (r : RegId), step s = .next t → t.xval r ≠ s.xval r →
    r ≠ 0 ∧ ∃ a b, s.nextInstr = .ok (.mac r a b) ∧
      t.xval r = (s.xval r + s.xval a * s.xval b) % 2 ^ s.cfg.XLEN

/-- R75, R134: in a state that meets the harness invariant, a step that answers a next state goes from an instruction's
address A to A + 4, still running and with no wrap, and from END nowhere: it halts there and leaves the pc. (That Halted is a
next state is the model's choice, log 6.) -/
def Obligations.OnlySuccessorIsNextAddress : Prop :=
  ∀ s t : State, s.Inv → s.outcome = .running → step s = .next t →
    (s.pcval ≠ s.endAddr → t.outcome = .running ∧ t.pcval = s.pcval + 4) ∧
    (s.pcval = s.endAddr → t.outcome = .halted ∧ t.pcval = s.pcval)

/-- Every legal launch meets the harness invariant (R126, R128, R134), and so does reset. -/
def Obligations.LaunchAndResetMeetInvariant : Prop :=
  (∀ (c : Cfg) (prog : List Word) (x : Vector (BitVec c.XLEN) 32), c.launchOk prog = true →
    (State.launch c prog x).Inv) ∧ State.reset.Inv

/-- The harness invariant (R134, R136, R17): a legal launch, an aligned pc between PROG_BASE and END, halted only at END;
every step keeps it. (The halted outcome is the model's choice, log 6.) -/
def Obligations.StepKeepsInvariant : Prop :=
  ∀ s t : State, s.Inv → step s = .next t → t.Inv

/-- R126 and R128: the launch state has the supplied configuration, program and register values, any of them; x0 reads 0;
pc = RESET_PC = PROG_BASE, a multiple of 4; the harness is running. -/
def Obligations.LaunchStateIsAsSupplied : Prop :=
  ∀ (c : Cfg) (prog : List Word) (x : Vector (BitVec c.XLEN) 32), c.launchOk prog = true →
    (State.launch c prog x).cfg = c ∧ (State.launch c prog x).prog = prog ∧
    (State.launch c prog x).xval 0 = 0 ∧
    (∀ r : RegId, r ≠ 0 → (State.launch c prog x).xval r = (x[r.val]).toNat) ∧
    (State.launch c prog x).pcval = c.progBase ∧ (State.launch c prog x).pcval % 4 = 0 ∧
    (State.launch c prog x).outcome = .running

/-- The reset state and its one step. The model's choices: every register 0 (log 3), RESET_PC = 0x1000 (log 4), no program
placed (log 7), Halted as the next state `reset.halt` (log 6). With the empty program the first step halts
(95_test_vectors.md P7). -/
def Obligations.ResetHasNoProgramAndHalts : Prop :=
  (∀ r : RegId, State.reset.xval r = 0) ∧ State.reset.pcval = 0x1000 ∧ State.reset.prog = [] ∧
  State.reset.outcome = .running ∧ step State.reset = .next State.reset.halt

/-- R138 (which the spec marks as derived): from every legal launch the run takes at most L executing steps, then halts at
END or faults; if every word of the program is a mac word it halts with pc = PROG_BASE + 4 L; a run that faults never halts.
(Halted as a recorded outcome is the model's choice, log 6.) -/
def Obligations.EveryRunEndsWithinProgramLength : Prop :=
  (∀ (c : Cfg) (prog : List Word) (x : Vector (BitVec c.XLEN) 32), c.launchOk prog = true →
    ∃ k t, k ≤ prog.length ∧ runSteps k (State.launch c prog x) = .next t ∧
      t.outcome = .running ∧ t.pcval = c.progBase + 4 * k ∧
      ((k = prog.length ∧ step t = .next t.halt) ∨ ∃ r, step t = .fault r)) ∧
  (∀ (c : Cfg) (prog : List Word) (x : Vector (BitVec c.XLEN) 32), c.launchOk prog = true →
    (∀ w ∈ prog, isMac c.sig w = true) →
    ∃ t, HaltsWith (State.launch c prog x) t ∧ t.pcval = c.progBase + 4 * prog.length) ∧
  ∀ (s t : State) (r : Fault), FaultsWith s r → ¬ HaltsWith s t
end

