-- ==== Sys2Proof/Laws/Decode.lean ====
section
/-! SUPPORT. What the decoder answers, said once (40_decode.md R50 to R56). -/

namespace Sys2Proof

theorem decode_of_isMac {g : Signature} {w : Word} (h : isMac g w = true) :
    decode g w = .ok (.mac (resolveField (rdOf w)) (resolveField (rs1Of w)) (resolveField (rs2Of w))) := by
  simp [decode, decodeObj, h, instrOf, construct, resolve, extractFields]

theorem decode_of_not_isMac {g : Signature} {w : Word} (h : isMac g w = false) :
    decode g w = .error (.notMac w) := by
  simp [decode, decodeObj, h]

theorem decode_ok_isMac {g : Signature} {w : Word} {i : Instr} (h : decode g w = .ok i) : isMac g w = true := by
  cases hm : isMac g w
  · simp [decode_of_not_isMac hm] at h
  · rfl

@[simp] theorem resolveField_fieldOf (r : RegId) : resolveField (fieldOf r) = r := by
  apply Fin.ext; simp [resolveField, fieldOf]

@[simp] theorem fieldOf_resolveField (v : RegField) : fieldOf (resolveField v) = v := by
  apply BitVec.eq_of_toNat_eq; simp [resolveField, fieldOf]

/-- A byte of a word as a number (R28). -/
theorem byteOfWord_toNat (w : Word) (k : Nat) : (byteOfWord w k).toNat = w.toNat / 2 ^ (8 * k) % 256 := by
  simp [byteOfWord, BitVec.extractLsb'_toNat, Nat.shiftRight_eq_div_pow]

/-- A word assembled from bytes as a number, the lowest address least significant (R28). -/
theorem wordOfBytes_toNat (b0 b1 b2 b3 : Byte) :
    (wordOfBytes b0 b1 b2 b3).toNat = b0.toNat + b1.toNat * 2 ^ 8 + b2.toNat * 2 ^ 16 + b3.toNat * 2 ^ 24 := by
  simp only [wordOfBytes, BitVec.toNat_append]
  rw [← Nat.shiftLeft_add_eq_or_of_lt b0.isLt, ← Nat.shiftLeft_add_eq_or_of_lt b1.isLt,
    ← Nat.shiftLeft_add_eq_or_of_lt b2.isLt]
  simp only [Nat.shiftLeft_eq]
  omega

/-- Taking a word apart and assembling it again gives the word. -/
@[simp] theorem wordOfBytes_byteOfWord (w : Word) :
    wordOfBytes (byteOfWord w 0) (byteOfWord w 1) (byteOfWord w 2) (byteOfWord w 3) = w := by
  apply BitVec.eq_of_toNat_eq
  have := w.isLt
  simp only [wordOfBytes_toNat, byteOfWord_toNat]
  omega

/-- Assembling bytes and taking the word apart gives the bytes. -/
@[simp] theorem bytesOfWord_wordOfBytes (b0 b1 b2 b3 : Byte) :
    bytesOfWord (wordOfBytes b0 b1 b2 b3) = [b0, b1, b2, b3] := by
  have h (k : Nat) (b : Byte) (e : (wordOfBytes b0 b1 b2 b3).toNat / 2 ^ (8 * k) % 256 = b.toNat) :
      byteOfWord (wordOfBytes b0 b1 b2 b3) k = b :=
    BitVec.eq_of_toNat_eq ((byteOfWord_toNat _ k).trans e)
  have := b0.isLt
  have := b1.isLt
  have := b2.isLt
  have := b3.isLt
  rw [bytesOfWord, h 0 b0 (by rw [wordOfBytes_toNat]; omega), h 1 b1 (by rw [wordOfBytes_toNat]; omega),
    h 2 b2 (by rw [wordOfBytes_toNat]; omega), h 3 b3 (by rw [wordOfBytes_toNat]; omega)]

@[simp] theorem instrOf_objOf (i : Instr) : instrOf (objOf i) = i := by
  cases i; rfl

end Sys2Proof
end

