-- ==== Sys2Proof/Laws/State.lean ====
section
/-! SUPPORT. One lemma per field per update of State, and the fields of a launch. -/

namespace Sys2Proof.Machine.State

variable (s : State) (r : RegId) (v : BitVec s.cfg.XLEN) (a : BitVec s.cfg.PCLEN)

@[simp] theorem writeReg_cfg : (s.writeReg r v).cfg = s.cfg := rfl
@[simp] theorem writeReg_prog : (s.writeReg r v).prog = s.prog := rfl
@[simp] theorem writeReg_x : (s.writeReg r v).x = regFileWrite s.x r v := rfl
@[simp] theorem writeReg_pc : (s.writeReg r v).pc = s.pc := rfl
@[simp] theorem writeReg_outcome : (s.writeReg r v).outcome = s.outcome := rfl

@[simp] theorem setAddress_cfg : (s.setAddress a).cfg = s.cfg := rfl
@[simp] theorem setAddress_prog : (s.setAddress a).prog = s.prog := rfl
@[simp] theorem setAddress_x : (s.setAddress a).x = s.x := rfl
@[simp] theorem setAddress_pc : (s.setAddress a).pc = a := rfl
@[simp] theorem setAddress_outcome : (s.setAddress a).outcome = s.outcome := rfl

@[simp] theorem halt_cfg : s.halt.cfg = s.cfg := rfl
@[simp] theorem halt_prog : s.halt.prog = s.prog := rfl
@[simp] theorem halt_x : s.halt.x = s.x := rfl
@[simp] theorem halt_pc : s.halt.pc = s.pc := rfl
@[simp] theorem halt_outcome : s.halt.outcome = .halted := rfl

variable (c : Cfg) (prog : List Word) (x : Vector (BitVec c.XLEN) 32)

@[simp] theorem launch_cfg : (launch c prog x).cfg = c := rfl
@[simp] theorem launch_prog : (launch c prog x).prog = prog := rfl
@[simp] theorem launch_x : (launch c prog x).x = x := rfl
@[simp] theorem launch_pc : (launch c prog x).pc = BitVec.ofNat c.PCLEN c.progBase := rfl
@[simp] theorem launch_outcome : (launch c prog x).outcome = .running := rfl

end Sys2Proof.Machine.State
end

