-- ==== Sys2Proof/Laws/Ops.lean ====
section
/-! SUPPORT. What the register and program-counter operations do, said once (10_state.md R12, R13, R16). -/

namespace Sys2Proof.Machine

/-- x0 reads 0 whatever is stored (R11). -/
@[simp] theorem regFileRead_zero {n : Nat} (x : Vector (BitVec n) 32) : regFileRead x 0 = 0 := rfl

/-- A register other than x0 reads what the file holds (R12). -/
theorem regFileRead_of_ne_zero {n : Nat} (x : Vector (BitVec n) 32) {r : RegId} (h : r ≠ 0) :
    regFileRead x r = x[r.val] :=
  if_neg fun hz => h (Option.some.inj hz).symm

/-- A write to x0 is discarded (R13). -/
@[simp] theorem regFileWrite_zero {n : Nat} (x : Vector (BitVec n) 32) (v : BitVec n) : regFileWrite x 0 v = x := rfl

theorem regFileWrite_of_ne_zero {n : Nat} (x : Vector (BitVec n) 32) {r : RegId} (h : r ≠ 0) (v : BitVec n) :
    regFileWrite x r v = x.set r.val v :=
  if_neg fun hz => h (Option.some.inj hz).symm

/-- A write is seen by a read of the same register, unless it is the zero register, and by no other read (R13). -/
theorem regFileRead_regFileWrite {n : Nat} (x : Vector (BitVec n) 32) (r q : RegId) (v : BitVec n) :
    regFileRead (regFileWrite x r v) q = if q = r ∧ r ≠ 0 then v else regFileRead x q := by
  by_cases hr : r = 0
  · subst hr; simp
  by_cases hq : q = 0
  · subst hq; simp [Ne.symm hr]
  rw [regFileWrite_of_ne_zero x hr, regFileRead_of_ne_zero _ hq, regFileRead_of_ne_zero _ hq]
  by_cases h : q = r
  · subst h; simp [hr]
  · have : (r : Nat) ≠ q := fun e => h (Fin.ext e.symm)
    simp [h, Vector.getElem_set_ne _ _ this]

/-- Writing a register with the value it reads changes nothing. -/
@[simp] theorem regFileWrite_regFileRead {n : Nat} (x : Vector (BitVec n) 32) (r : RegId) :
    regFileWrite x r (regFileRead x r) = x := by
  by_cases h : r = 0
  · subst h; rfl
  · simp [regFileWrite_of_ne_zero x h, regFileRead_of_ne_zero x h]

variable (s : State)

theorem State.xval_eq (r : RegId) : s.xval r = (regFileRead s.x r).toNat := rfl

@[simp] theorem State.xval_mk (c : Cfg) (p : List Word) (x : Vector (BitVec c.XLEN) 32) (a : BitVec c.PCLEN)
    (o : RunOutcome) (r : RegId) : (State.mk c p x a o).xval r = (regFileRead x r).toNat := rfl

theorem State.pcval_eq : s.pcval = s.pc.toNat := rfl

@[simp] theorem State.pcval_mk (c : Cfg) (p : List Word) (x : Vector (BitVec c.XLEN) 32) (a : BitVec c.PCLEN)
    (o : RunOutcome) : (State.mk c p x a o).pcval = a.toNat := rfl

@[simp] theorem State.xval_zero : s.xval 0 = 0 := by simp [State.xval_eq]

/-- The state after a register write, as unsigned values (R13). -/
theorem State.xval_writeReg (r q : RegId) (v : BitVec s.cfg.XLEN) :
    (s.writeReg r v).xval q = if q = r ∧ r ≠ 0 then v.toNat else s.xval q := by
  rw [State.writeReg, State.xval_mk, regFileRead_regFileWrite]
  split <;> rfl

@[simp] theorem State.xval_setAddress (r : RegId) (a : BitVec s.cfg.PCLEN) :
    (s.setAddress a).xval r = s.xval r := rfl

@[simp] theorem State.xval_halt (r : RegId) : s.halt.xval r = s.xval r := rfl

@[simp] theorem State.pcval_writeReg (r : RegId) (v : BitVec s.cfg.XLEN) : (s.writeReg r v).pcval = s.pcval := rfl

@[simp] theorem State.pcval_setAddress (a : BitVec s.cfg.PCLEN) : (s.setAddress a).pcval = a.toNat := rfl

@[simp] theorem State.pcval_halt : s.halt.pcval = s.pcval := rfl

theorem State.xval_lt (r : RegId) : s.xval r < 2 ^ s.cfg.XLEN := (s.readReg r).isLt

theorem State.pcval_lt : s.pcval < 2 ^ s.cfg.PCLEN := s.pc.isLt

@[simp] theorem nextSequentialAddress_toNat {n : Nat} (a : BitVec n) :
    (nextSequentialAddress a).toNat = (a.toNat + 4) % 2 ^ n := by
  simp [nextSequentialAddress]

/-- The byte view, the end address and a word of the stream depend on the configuration and the program alone (R34). -/
theorem State.wordAt_congr {s t : State} (hc : t.cfg = s.cfg) (hp : t.prog = s.prog) (a : Nat) :
    t.wordAt a = s.wordAt a := by
  cases s; cases t; subst hc hp; rfl

theorem State.byteAt_congr {s t : State} (hc : t.cfg = s.cfg) (hp : t.prog = s.prog) (a : Nat) :
    t.byteAt a = s.byteAt a := by
  cases s; cases t; subst hc hp; rfl

end Sys2Proof.Machine
end

