-- ==== Sys2Proof/Laws/Mac.lean ====
section
/-! SUPPORT. What `mac` does, as one equation (41_mac_execute.md R65); later proofs cite it and unfold nothing. -/

namespace Sys2Proof.Machine

theorem macResult_toNat {n : Nat} (d a b : BitVec n) :
    (macResult d a b).toNat = (d.toNat + a.toNat * b.toNat) % 2 ^ n := by
  simp [macResult]

/-- The state after `mac rd, rs1, rs2` (R65). -/
theorem exec_mac_eq (rd rs1 rs2 : RegId) (s : State) :
    exec (.mac rd rs1 rs2) s = .next { s with
      x := regFileWrite s.x rd (macResult (regFileRead s.x rd) (regFileRead s.x rs1) (regFileRead s.x rs2))
      pc := nextSequentialAddress s.pc } :=
  rfl

/-- An instruction that answers a next state keeps the configuration, the program and the outcome. -/
theorem exec_keeps_launch {i : Instr} {s t : State} (h : exec i s = .next t) :
    t.cfg = s.cfg ∧ t.prog = s.prog ∧ t.outcome = s.outcome := by
  cases i
  rw [exec_mac_eq] at h
  cases h
  exact ⟨rfl, rfl, rfl⟩

end Sys2Proof.Machine
end

