-- ==== Sys2Proof/Laws/PerInstr.lean ====
section
/-! SUPPORT. Statements about every instruction, one lemma per constructor. -/

/-- Every instruction is well-formed: an illegal register index cannot arise (40_decode.md R55). -/
def Sys2Proof.Laws.WellFormed.Statement (i : Sys2Proof.Instr) : Prop := i.wf = true

theorem Sys2Proof.Laws.WellFormed.mac (rd rs1 rs2 : Sys2Proof.RegId) :
    Sys2Proof.Laws.WellFormed.Statement (.mac rd rs1 rs2) := by
  simp [Sys2Proof.Laws.WellFormed.Statement, Sys2Proof.Instr.wf, Sys2Proof.indexOk]
end

