-- ==== Sys2Proof/Laws/Program.lean ====
section
/-! SUPPORT. The byte image of the instruction stream is in canonical form, in every state, so after every step
(20_memory.md R28, R31). -/

namespace Sys2Proof.Machine

theorem State.endAddr_eq (s : State) : s.endAddr = s.cfg.progBase + 4 * s.prog.length := rfl

theorem Cfg.launchOk_iff (c : Cfg) (prog : List Word) :
    c.launchOk prog = true ↔ c.progBase % 4 = 0 ∧ c.progBase + 4 * prog.length < 2 ^ c.PCLEN := by
  simp [Cfg.launchOk, Cfg.baseAligned, Cfg.noWrap]

/-- Inside the program there is a word, and outside there is none (R31, R134). -/
theorem State.wordAt_of_mem {s : State} {a : Nat} (h₁ : s.cfg.progBase ≤ a) (h₂ : a < s.endAddr) :
    s.wordAt a = s.prog[(a - s.cfg.progBase) / 4]? ∧ ∃ w, s.prog[(a - s.cfg.progBase) / 4]? = some w := by
  have : (a - s.cfg.progBase) / 4 < s.prog.length := by rw [s.endAddr_eq] at h₂; omega
  exact ⟨if_pos ⟨h₁, h₂⟩, _, List.getElem?_eq_getElem this⟩

theorem State.wordAt_of_not_mem {s : State} {a : Nat} (h : ¬(s.cfg.progBase ≤ a ∧ a < s.endAddr)) :
    s.wordAt a = none := if_neg h

theorem State.fetch_ok_wordAt {s : State} {a : Nat} {w : Word} (h : s.fetch a = .ok w) :
    a % 4 = 0 ∧ s.wordAt a = some w := by
  unfold State.fetch at h
  split at h
  · cases h
  · rename_i ha
    split at h
    · cases h; exact ⟨by simpa using ha, ‹_›⟩
    · cases h

theorem Memory.wf_cons {c : Host.Cell} {m : List Host.Cell} (hm : Memory.wf m = true)
    (hc : ∀ c' ∈ m.head?, c.1 < c'.1) : Memory.wf (c :: m) = true := by
  cases m with
  | nil => rfl
  | cons c' m => simpa [Memory.wf, hm] using hc c' rfl

theorem imageFrom_head (a : Nat) (ws : List Word) : ∀ c ∈ (imageFrom a ws).head?, c.1 = a := by
  cases ws <;> simp [imageFrom]

theorem imageFrom_wf (a : Nat) (ws : List Word) : Memory.wf (imageFrom a ws) = true := by
  induction ws generalizing a with
  | nil => rfl
  | cons w ws ih =>
    have hh : ∀ c ∈ (imageFrom (a + 4) ws).head?, a + 3 < c.1 := fun c hc => by
      rw [imageFrom_head _ _ c hc]; omega
    refine Memory.wf_cons (Memory.wf_cons (Memory.wf_cons (Memory.wf_cons (ih _) hh) ?_) ?_) ?_ <;> simp

/-- Every state's memory image has the canonical form; the operations that change a program keep it. -/
theorem State.image_wf (s : State) : Memory.wf s.image = true := imageFrom_wf _ _

theorem State.placeWord_image_wf (s : State) (w : Word) : Memory.wf (s.placeWord w).image = true := State.image_wf _

theorem State.reset_image : State.reset.image = [] := rfl

end Sys2Proof.Machine
end

