-- ==== Sys2Proof/Laws/Step.lean ====
section
/-! SUPPORT. Everything a step that answers a next state can have done (70_reset_and_hazards.md R137), said once. -/

namespace Sys2Proof.Machine

theorem step_next_cases {s t : State} (h : step s = .next t) :
    (s.outcome = .halted ∧ t = s) ∨
    (s.outcome = .running ∧ s.atEnd = true ∧ t = s.halt) ∨
    (s.outcome = .running ∧ s.atEnd = false ∧ ∃ i, s.nextInstr = .ok i ∧ exec i s = .next t) := by
  unfold step harnessStep at h
  split at h
  · exact .inl ⟨‹_›, by cases h; rfl⟩
  · rename_i ho
    split at h
    · exact .inr (.inl ⟨ho, ‹_›, by cases h; rfl⟩)
    · rename_i he
      split at h
      · cases h
      · exact .inr (.inr ⟨ho, by simpa using he, _, ‹_›, h⟩)

end Sys2Proof.Machine
end

