-- ==== Sys2Proof/Laws/Safety.lean ====
section
/-! SUPPORT. Runs: one more step at either end, and agreement with the host's `Core.run` (70_reset_and_hazards.md R138). -/

namespace Sys2Proof.Machine

theorem runSteps_succ_of_next {s s' : State} (h : step s = .next s') (k : Nat) :
    runSteps (k + 1) s = runSteps k s' := by
  simp [runSteps, h]

/-- A run extended by one step at its end. -/
theorem runSteps_succ {k : Nat} {s t : State} (h : runSteps k s = .next t) : runSteps (k + 1) s = step t := by
  induction k generalizing s with
  | zero =>
    obtain rfl : s = t := by simpa [runSteps] using h
    cases hs : step s <;> simp [runSteps, hs]
  | succ k ih =>
    cases hs : step s with
    | next s' => rw [runSteps_succ_of_next hs] at h ⊢; exact ih h
    | fault r => simp [runSteps, hs] at h
    | refused r => simp [runSteps, hs] at h

/-- `runSteps` is the host's run of `core`. -/
theorem runSteps_eq_run (k : Nat) (s : State) : Host.Core.run Sys2Proof.core k s = runSteps k s := by
  induction k generalizing s with
  | zero => rfl
  | succ k ih =>
    cases hs : step s <;> simp only [Host.Core.run, runSteps, hs, ih, show Sys2Proof.core.step s = step s from rfl] <;> rfl

/-- A halted run is over: every further step leaves it as it is (log 6). -/
theorem runSteps_of_halted {s : State} (h : s.outcome = .halted) (k : Nat) : runSteps k s = .next s := by
  induction k with
  | zero => rfl
  | succ k ih => rw [runSteps_succ ih]; simp [step, harnessStep, h]

end Sys2Proof.Machine
end

