-- ==== Sys2Proof/Machine/Flags.lean ====
section
/-!
DEFINITION. Flags: the hardware has none. 10_state.md R19: no status word, no flag, no condition code; 41_mac_execute.md R65:
"Flags written. None; the hardware has no flags"; R70: no carry-out and no overflow flag. So this file defines nothing.
-/
end

