-- ==== Sys2Proof/Tests/Slice0.lean ====
section
/-!
SUPPORT. Tests with expected values from spec/95_test_vectors.md (or the rule named), the WellFormed smoke tests, and a
witness for every hypothesis of the statements in Certificates/Slice0/Obligations.lean.
-/

namespace Sys2Proof.Tests

open Sys2Proof Sys2Proof.Machine

/-! ### Helpers -/

/-- A register file with the listed values, 0 elsewhere. -/
def regs (n : Nat) (vals : List (RegId × Nat)) : Vector (BitVec n) 32 :=
  vals.foldl (fun x p => x.set p.1.val (BitVec.ofNat n p.2)) (Vector.replicate 32 0)

/-- A launch at PROG_BASE = 0x1000 under the default signature (95_test_vectors.md Part 3). -/
def launched (xl : Xlen) (prog : List Word) (vals : List (RegId × Nat)) : State :=
  State.launch { Config.default with xlen := xl } prog (regs _ vals)

/-- The same state at another pc. -/
def atPc (s : State) (a : Nat) : State := { s with pc := BitVec.ofNat _ a }

/-- A property of the next state, false when there is none. -/
def nextIs (o : Host.Outcome State Fault Refusal) (p : State → Bool) : Bool :=
  match o with
  | .next t => p t
  | _ => false

/-- The fault of an outcome. -/
def faultOf (o : Host.Outcome State Fault Refusal) : Option Fault :=
  match o with
  | .fault r => some r
  | _ => none

/-- S1 as a program (P1). -/
def s1 (xl : Xlen) : State := launched xl [0x0020818B] [(1, 3), (2, 4), (3, 10)]

/-! ### WellFormed: each check refuses an ill-formed term -/

theorem test_indexOk_refuses_32 : indexOk 31 = true ∧ indexOk 32 = false := by decide

theorem test_instr_wf : (Instr.mac 31 0 31).wf = true := by decide

theorem test_obj_wf_refuses_other_mnemonic :
    (objOf (.mac 3 1 2)).wf = true ∧ ({ objOf (.mac 3 1 2) with mnemonic := "add" } : InstrObj).wf = false := by decide

theorem test_baseAligned_refuses_odd_base :
    Config.default.baseAligned = true ∧ ({ Config.default with progBase := 0x1002 } : Cfg).baseAligned = false := by
  decide

theorem test_noWrap_refuses_program_at_the_top :
    ({ Config.default with xlen := .x32, progBase := 0xFFFFFFF8 } : Cfg).noWrap 1 = true ∧
    ({ Config.default with xlen := .x32, progBase := 0xFFFFFFF8 } : Cfg).noWrap 2 = false := by decide

theorem test_launchOk_refuses_both :
    Config.default.launchOk [0x0000000B] = true ∧
    ({ Config.default with progBase := 0x1001 } : Cfg).launchOk [] = false ∧
    ({ Config.default with xlen := .x32, progBase := 0xFFFFFFFC } : Cfg).launchOk [0x0000000B] = false := by decide

/-! ### Decoding and encoding (95_test_vectors.md 2.1, 2.2; words bit by bit from R36) -/

theorem test_decode_mac_words :
    decode Config.defaultSig 0b0000000_00010_00001_000_00011_0001011 = .ok (.mac 3 1 2) ∧
    decode Config.defaultSig 0b0000000_00011_00010_000_00001_0001011 = .ok (.mac 1 2 3) ∧
    decode Config.defaultSig 0b0000000_10101_01010_000_10101_0001011 = .ok (.mac 21 10 21) ∧
    decode Config.defaultSig 0b0000000_01100_01011_000_01010_0001011 = .ok (.mac 10 11 12) :=
  ⟨rfl, rfl, rfl, rfl⟩

theorem test_decode_one_hot_fields :
    decode Config.defaultSig 0x0000008B = .ok (.mac 1 0 0) ∧ decode Config.defaultSig 0x0000080B = .ok (.mac 16 0 0) ∧
    decode Config.defaultSig 0x0000800B = .ok (.mac 0 1 0) ∧ decode Config.defaultSig 0x0008000B = .ok (.mac 0 16 0) ∧
    decode Config.defaultSig 0x0010000B = .ok (.mac 0 0 1) ∧ decode Config.defaultSig 0x0100000B = .ok (.mac 0 0 16) :=
  ⟨rfl, rfl, rfl, rfl, rfl, rfl⟩

theorem test_encode_words :
    encode Config.defaultSig (.mac 3 1 2) = 0x0020818B ∧ encode Config.defaultSig (.mac 31 31 31) = 0x01FF8F8B ∧
    encode Config.defaultSig (.mac 4 2 1) = 0x0011020B ∧ encode Config.defaultSig (.mac 10 21 10) = 0x00AA850B := by
  decide

theorem test_non_mac_words :
    ([0x002081B3, 0x0000000A, 0x0000000F, 0x0000002B, 0x0000100B, 0x0000700B, 0x01FFFF8B, 0x0200000B, 0x0220818B,
      0x8000000B, 0xFE00000B, 0x00000000, 0xFFFFFFFF] : List Word).all (fun w => decodeObj Config.defaultSig w == .notMac)
      = true := by decide

/-- "Under another signature, replace each word W by (W and not 0xFE00707F) or MAC_MATCH" (95_test_vectors.md). -/
theorem test_other_signature :
    decode { opcode := 0x5B, funct3 := 5, funct7 := 0x41 } 0x8220D1DB = .ok (.mac 3 1 2) ∧
    decode { opcode := 0x5B, funct3 := 5, funct7 := 0x41 } 0x0020818B = .error (.notMac 0x0020818B) :=
  ⟨rfl, rfl⟩

theorem test_decodeBytes_little_endian :
    decodeBytes Config.defaultSig [0x8B, 0x81, 0x20, 0x00, 0xAA] = .ok (.mac 3 1 2, [0xAA]) ∧
    decodeBytes Config.defaultSig [0x8B, 0x81, 0x20] = .error (.tooShort 3) :=
  ⟨rfl, rfl⟩

theorem test_decodeTableWord : decodeTableWord 32 0x0020818B = some (.mac 3 1 2) ∧ decodeTableWord 32 0 = none := by decide

/-! ### The result (95_test_vectors.md 2.4) -/

theorem test_result_32 :
    macResult 0x0000007B#32 0x00000000#32 0xFFFFFFFF#32 = 0x0000007B#32 ∧
    macResult 0x7FFFFFFF#32 0x7FFFFFFF#32 0x7FFFFFFF#32 = 0x80000000#32 ∧
    macResult 0x00000000#32 0x12345678#32 0x9ABCDEF0#32 = 0x242D2080#32 ∧
    macResult 0xDEADBEEF#32 0xCAFEBABE#32 0x0BADF00D#32 = 0x59155A95#32 := by decide

theorem test_result_64 :
    macResult 0x0#64 0x00000000FFFFFFFF#64 0x00000000FFFFFFFF#64 = 0xFFFFFFFE00000001#64 ∧
    macResult 0x0#64 0x12345678#64 0x9ABCDEF0#64 = 0x0B00EA4E242D2080#64 ∧
    macResult 0xDEADBEEF#64 0xCAFEBABE#64 0x0BADF00D#64 = 0x0942DE8459155A95#64 := by decide

/-! ### One step of `mac` -/

/-- S1: x3 = 22, x1 and x2 unchanged, pc + 4; 0x1000 to 0x1004 by P1. -/
theorem test_mac_source_scenario :
    nextIs (step (s1 .x64)) (fun t => t.xval 3 == 22 && t.xval 1 == 3 && t.xval 2 == 4 && t.pcval == 0x1004) = true := by
  decide

/-- P3 start B at XLEN = 32: `mac x5, x5, x5` from 0x10001 gives 0x00030002. -/
theorem test_mac_aliased_wraps :
    nextIs (exec (.mac 5 5 5) (launched .x32 [] [(5, 0x10001)])) (fun t => t.xval 5 == 0x00030002) = true := by decide

/-! ### The harness (95_test_vectors.md 2.8, P7; 60_exceptions.md R107) -/

theorem test_harness_faults :
    faultOf (step (atPc (s1 .x64) 0x1002)) = some (.fetchMisaligned 0x1002) ∧
    faultOf (step (atPc (s1 .x64) 0x1008)) = some (.fetchOutOfProgram 0x1008) ∧
    faultOf (step (atPc (s1 .x64) 0x0FFC)) = some (.fetchOutOfProgram 0x0FFC) ∧
    faultOf (step (atPc (s1 .x64) 0x1001)) = some (.fetchMisaligned 0x1001) ∧
    faultOf (step (launched .x32 [0x002081B3] [])) = some (.unrecognizedWord 0x1000 0x002081B3) := by decide

theorem test_halts_at_end :
    nextIs (step (atPc (s1 .x64) 0x1004)) (fun t => t.outcome == .halted && t.pcval == 0x1004) = true := by decide

theorem test_empty_program_halts : nextIs (step State.reset) (fun t => t.outcome == .halted) = true := by decide

theorem test_pc_wraps_and_ignores_alignment :
    nextIs (exec (.mac 0 0 0) (atPc (s1 .x32) 0xFFFFFFFC)) (fun t => t.pcval == 0) = true ∧
    nextIs (exec (.mac 0 0 0) (atPc (s1 .x64) 0x00000000FFFFFFFC)) (fun t => t.pcval == 0x0000000100000000) = true ∧
    nextIs (exec (.mac 0 0 0) (atPc (s1 .x32) 0x00001002)) (fun t => t.pcval == 0x00001006) = true := by decide

/-- A word placed after reset is the first instruction run. -/
theorem test_withFetchWord_runs_first :
    (State.reset.withFetchWord 32 0x0020818B).nextInstr = .ok (.mac 3 1 2) ∧
    nextIs (step (State.reset.withFetchWord 32 0x0020818B)) (fun t => t.pcval == 0x1004) = true :=
  ⟨rfl, by decide⟩

/-- Placing a word works at the end, inside, and away from a program. -/
theorem test_placeWord_elsewhere :
    ((atPc (s1 .x64) 0x1004).placeWord 0x0000008B).nextInstr = .ok (.mac 1 0 0) ∧
    ((s1 .x64).placeWord 0x0000008B).prog = [0x0000008B] ∧
    ((atPc (s1 .x32) 0x2003).placeWord 0x0000008B).nextInstr = .ok (.mac 1 0 0) :=
  ⟨rfl, rfl, rfl⟩

/-! ### Text (95_test_vectors.md 2.3) and trace -/

theorem test_disassembly :
    disassembleWith regName (objOf (.mac 3 1 2)) = "mac x3, x1, x2" ∧
    disassembleWith regName (objOf (.mac 21 10 21)) = "mac x21, x10, x21" := by decide

theorem test_assemble :
    assembleWord Config.defaultSig "mac x10, x11, x12" = some 0x00C5850B ∧ assemble "mac x3,x1, x2" = none ∧
    assemble "mac x03, x1, x2" = none ∧ assemble "mac x3, x1, x32" = none := by decide

theorem test_trace : traceTexts 3 (s1 .x64) = ["mac x3, x1, x2"] := by decide

/-! ### Ports (45_interfaces.md R98) -/

theorem test_transaction :
    ((transaction (s1 .x32) 0x0020818B).map fun t => (t.xval 3, t.pcval)) = some (22, 0x1004) ∧
    transaction (s1 .x32) 0x002081B3 = none := by decide

/-! ### Memory image -/

theorem test_image :
    (s1 .x64).image = [(0x1000, 0x8B), (0x1001, 0x81), (0x1002, 0x20), (0x1003, 0x00)] ∧
    (s1 .x64).byteAt 0x1001 = some 0x81 ∧ (s1 .x64).byteAt 0x1004 = none := by decide

theorem test_memory_wf_refuses_unsorted :
    Memory.wf [(4, 1), (5, 2)] = true ∧ Memory.wf [(4, 1), (4, 2)] = false ∧ Memory.wf [(5, 1), (4, 2)] = false := by
  decide

/-! ### Witnesses: concrete states and operands that meet the hypotheses of each statement together -/

/-- The boundaries of the field ranges of OneBitFlipStaysMacExactlyInRegisterFields, and of the decoder's two arms. -/
theorem witness_OneBitFlip :
    isMac Config.defaultSig 0x0020818B = true ∧
    ([7, 11, 15, 19, 20, 24].all fun k => isMac Config.defaultSig (0x0020818B ^^^ BitVec.twoPow 32 k)) = true ∧
    ([0, 6, 12, 14, 25, 31].all fun k => !isMac Config.defaultSig (0x0020818B ^^^ BitVec.twoPow 32 k)) = true := by decide

theorem witness_DecoderArms : isMac Config.defaultSig 0x01FF8F8B = true ∧ isMac Config.defaultSig 0x0000100B = false := by
  decide

theorem witness_DecodeAndEncodeAreInverse : decodeObj Config.defaultSig 0x0020818B = .mac (objOf (.mac 3 1 2)) := by decide

theorem witness_ByteDecoder :
    (Instr.mac 3 1 2).wf = true ∧
    decodeBytes Config.defaultSig [0x8B, 0x81, 0x20, 0x00, 0x01] = .ok (.mac 3 1 2, [0x01]) := ⟨by decide, rfl⟩

theorem witness_RegisterContracts :
    (0 : RegId) = 0 ∧ (31 : RegId) ≠ 0 ∧ (1 : RegId) ≠ 31 ∧ ((s1 .x32).writeReg 31 7).xval 31 = 7 ∧
    ((s1 .x32).writeReg 0 7).xval 0 = 0 := by decide

theorem witness_PcAlignment :
    (atPc (s1 .x32) 0xFFFFFFFC).pcval = 2 ^ (s1 .x32).cfg.PCLEN - 4 ∧
    (atPc (s1 .x32) 0x1002).outcome = .running ∧ (atPc (s1 .x32) 0x1002).pcval ≠ (atPc (s1 .x32) 0x1002).endAddr ∧
    (atPc (s1 .x32) 0x1002).pcval % 4 ≠ 0 := by decide

theorem witness_SourceScenario : (s1 .x32).xval 1 = 3 ∧ (s1 .x32).xval 2 = 4 ∧ (s1 .x32).xval 3 = 10 := by decide

theorem witness_MacFrame : ∃ t, exec (.mac 3 1 2) (s1 .x64) = .next t ∧ t.xval 3 = 22 := ⟨_, rfl, by decide⟩

theorem witness_Aliased : (7 : RegId) ≠ 8 ∧ (7 : RegId) ≠ 0 ∧ (0 : RegId) ≠ 8 := by decide

theorem witness_CornerRows :
    2 ≤ 32 ∧ (0xFFFFFFFF : BitVec 32) = BitVec.allOnes 32 ∧ (0x80000000 : BitVec 32) = BitVec.twoPow 32 (32 - 1) ∧
    2 ≤ 64 ∧ (0xFFFFFFFFFFFFFFFF : BitVec 64) = BitVec.allOnes 64 := by decide

theorem witness_Narrow : 32 ≤ 64 ∧ 0 ≤ 64 ∧ 64 ≤ 64 := by decide

/-- Two different states that agree on the operands of `mac x3, x1, x2` and on the pc. -/
theorem witness_MacDependsOnlyOnItsOperands :
    (s1 .x64).cfg.xlen = (launched .x64 [] [(1, 3), (2, 4), (3, 10), (9, 5)]).cfg.xlen ∧
    (s1 .x64).xval 3 = (launched .x64 [] [(1, 3), (2, 4), (3, 10), (9, 5)]).xval 3 ∧
    (s1 .x64).xval 1 = (launched .x64 [] [(1, 3), (2, 4), (3, 10), (9, 5)]).xval 1 ∧
    (s1 .x64).xval 2 = (launched .x64 [] [(1, 3), (2, 4), (3, 10), (9, 5)]).xval 2 ∧
    (s1 .x64).pcval = (launched .x64 [] [(1, 3), (2, 4), (3, 10), (9, 5)]).pcval ∧
    s1 .x64 ≠ launched .x64 [] [(1, 3), (2, 4), (3, 10), (9, 5)] := by decide

/-- The values after `mac x3, x1, x2` of S1, as SecondMacSeesFirstMacsWrite asks for them. -/
theorem witness_SecondMac :
    ∃ v : RegId → Nat, (∀ r, v r = if r = 3 ∧ r ≠ 0 then ((s1 .x64).xval 3 + (s1 .x64).xval 1 * (s1 .x64).xval 2)
      % 2 ^ (s1 .x64).cfg.XLEN else (s1 .x64).xval r) ∧ v 3 = 22 := ⟨_, fun _ => rfl, rfl⟩

theorem witness_StraightLine :
    (10 : RegId) ≠ 0 ∧ ∀ p ∈ ([(11, 12), (13, 14), (15, 16)] : List (RegId × RegId)), p.1 ≠ 10 ∧ p.2 ≠ 10 := by simp

theorem witness_DisassemblyIgnoresPc :
    (objOf (.mac 3 1 2)).wf = true ∧ (objOf (.mac 3 1 2)).dest = 3 ∧ (objOf (.mac 3 1 2)).src1 = 1 := by decide

theorem witness_Ports :
    (drivePorts (s1 .x64) 0x0020818B).instrValid = true ∧ isMac (s1 .x64).cfg.sig 0x0020818B = true ∧
    isMac (s1 .x64).cfg.sig 0x002081B3 = false ∧ decode (s1 .x64).cfg.sig 0x0020818B = .ok (.mac 3 1 2) :=
  ⟨rfl, rfl, rfl, rfl⟩

/-- The three cases of Fetch at the boundaries of the program of S1: first word, END, just below, misaligned. -/
theorem witness_FetchCases :
    (0x1000 % 4 = 0 ∧ (s1 .x64).cfg.progBase ≤ 0x1000 ∧ 0x1000 < (s1 .x64).endAddr) ∧
    ¬((s1 .x64).cfg.progBase ≤ 0x1004 ∧ 0x1004 < (s1 .x64).endAddr) ∧
    ¬((s1 .x64).cfg.progBase ≤ 0x0FFC ∧ 0x0FFC < (s1 .x64).endAddr) ∧ 0x1001 % 4 ≠ 0 := by decide

theorem witness_FetchIsLittleEndian :
    (s1 .x64).cfg.progBase % 4 = 0 ∧ 0x1000 % 4 = 0 ∧ (s1 .x64).fetch 0x1000 = .ok 0x0020818B ∧
    (s1 .x64).byteAt 0x1000 = some 0x8B ∧ (s1 .x64).byteAt 0x1001 = some 0x81 ∧
    (s1 .x64).byteAt 0x1002 = some 0x20 ∧ (s1 .x64).byteAt 0x1003 = some 0x00 :=
  ⟨rfl, rfl, rfl, rfl, rfl, rfl, rfl⟩

/-- Each clause of StepRunsTheDecodedInstruction: at END, a fetch fault, a word that is not mac, a mac word. -/
theorem witness_StepRuns :
    ((atPc (s1 .x64) 0x1004).outcome = .running ∧ (atPc (s1 .x64) 0x1004).pcval = (atPc (s1 .x64) 0x1004).endAddr) ∧
    ((atPc (s1 .x64) 0x1008).pcval ≠ (atPc (s1 .x64) 0x1008).endAddr ∧
      (atPc (s1 .x64) 0x1008).fetch 0x1008 = .error (.fetchOutOfProgram 0x1008)) ∧
    ((launched .x32 [0x002081B3] []).fetch 0x1000 = .ok 0x002081B3 ∧
      decodeObj (launched .x32 [0x002081B3] []).cfg.sig 0x002081B3 = .notMac) ∧
    ((s1 .x64).outcome = .running ∧ (s1 .x64).pcval ≠ (s1 .x64).endAddr ∧
      (s1 .x64).fetch (s1 .x64).pcval = .ok 0x0020818B ∧
      decodeObj (s1 .x64).cfg.sig 0x0020818B = .mac (objOf (.mac 3 1 2)) ∧
      decode (s1 .x64).cfg.sig 0x0020818B = .ok (.mac 3 1 2)) :=
  ⟨⟨rfl, rfl⟩, ⟨by decide, rfl⟩, ⟨rfl, rfl⟩, rfl, by decide, rfl, rfl, rfl⟩

theorem witness_NonMacWord :
    isMac (launched .x32 [0x00000000] []).cfg.sig 0x00000000 = false ∧
    (launched .x32 [0x00000000] []).outcome = .running ∧
    (launched .x32 [0x00000000] []).pcval ≠ (launched .x32 [0x00000000] []).endAddr ∧
    (launched .x32 [0x00000000] []).fetch (launched .x32 [0x00000000] []).pcval = .ok 0x00000000 :=
  ⟨rfl, rfl, by decide, rfl⟩

/-- For StepKeepsProgramAndConfiguration and RegisterChangesOnlyAsDestination: a step that changes a register. -/
theorem witness_StepChangesRegister : ∃ t, step (s1 .x64) = .next t ∧ t.xval 3 ≠ (s1 .x64).xval 3 :=
  ⟨_, rfl, by decide⟩

theorem witness_HaltsExactlyAtEnd :
    (∃ t, step (s1 .x64) = .next t ∧ t.outcome = .running) ∧
    ∃ t, step (atPc (s1 .x64) 0x1004) = .next t ∧ t.outcome = .halted := ⟨⟨_, rfl, rfl⟩, _, rfl, rfl⟩

/-- For OnlySuccessorIsNextAddress (each clause) and StepKeepsInvariant: running at a program word, and at END. -/
theorem witness_Invariant :
    ((s1 .x32).Inv ∧ (s1 .x32).outcome = .running ∧ (s1 .x32).pcval ≠ (s1 .x32).endAddr ∧
      ∃ t, step (s1 .x32) = .next t) ∧
    (atPc (s1 .x32) 0x1004).Inv ∧ (atPc (s1 .x32) 0x1004).outcome = .running ∧
      (atPc (s1 .x32) 0x1004).pcval = (atPc (s1 .x32) 0x1004).endAddr ∧ ∃ t, step (atPc (s1 .x32) 0x1004) = .next t :=
  ⟨⟨by constructor <;> decide, rfl, by decide, _, rfl⟩, by constructor <;> decide, rfl, by decide, _, rfl⟩

theorem witness_Launch :
    (s1 .x32).cfg.launchOk (s1 .x32).prog = true ∧ ∀ w ∈ (s1 .x32).prog, isMac (s1 .x32).cfg.sig w = true :=
  ⟨by decide, fun w hw => by obtain rfl : w = 0x0020818B := List.mem_singleton.mp hw; rfl⟩

theorem witness_FaultsWith : FaultsWith (launched .x64 [0x002081B3] []) (.unrecognizedWord 0x1000 0x002081B3) :=
  ⟨1, rfl⟩

theorem witness_HaltsWith : ∃ t, HaltsWith (s1 .x64) t ∧ t.pcval = 0x1004 := ⟨_, ⟨2, rfl, rfl⟩, by decide⟩

end Sys2Proof.Tests
end

namespace Sys2Proof.Machine

/-! ### The register-file and program-counter contracts (10_state.md R12 to R17) -/

/-- Settles O11: R12's two cases are the two cases of the register file's read. -/
theorem registerReadContract : Obligations.RegisterReadContract := by
  intro s r
  constructor
  · rintro rfl
    exact regFileRead_zero s.x
  · exact regFileRead_of_ne_zero s.x

/-- A write to x0 leaves the whole state as it is (R13). -/
@[simp] theorem State.writeReg_zero (s : State) (v : BitVec s.cfg.XLEN) : s.writeReg 0 v = s := rfl

/-- Settles O12: the read-after-write lemma `State.xval_writeReg`, at the register written and at another one. -/
theorem registerWriteContract : Obligations.RegisterWriteContract := by
  intro s r v
  refine ⟨?_, fun hr => ?_, fun q hq => ?_, s.pcval_writeReg r v⟩
  · rintro rfl
    simp
  · simp [s.xval_writeReg, hr]
  · simp [s.xval_writeReg, hq]

/-- Settles O13: the one instruction completes with `nextSequentialAddress` of its pc (R65). -/
theorem pcAdvancesByOneInstructionWidth : Obligations.PcAdvancesByOneInstructionWidth := by
  rintro ⟨rd, rs1, rs2⟩ s
  exact ⟨_, exec_mac_eq rd rs1 rs2 s, nextSequentialAddress_toNat s.pc⟩

/-- The address space is a whole number of instruction widths at both values of XLEN (R5). -/
theorem Cfg.four_dvd_addressSpace (c : Cfg) : 4 ∣ 2 ^ c.PCLEN := by
  obtain ⟨xlen, sig, base⟩ := c
  cases xlen
  · show 4 ∣ 2 ^ 32
    decide
  · show 4 ∣ 2 ^ 64
    decide

/-- Fetch tests alignment before anything else (R135, R108). -/
theorem State.fetch_of_misaligned (s : State) {a : Nat} (h : a % 4 ≠ 0) :
    s.fetch a = .error (.fetchMisaligned a) :=
  if_pos h

/-- What fetch answers with a fault ends the instruction's fetch and decode (R137). -/
theorem State.nextInstr_of_fetch_error {s : State} {f : Fault} (h : s.fetch s.pcval = .error f) :
    s.nextInstr = .error f := by
  simp [State.nextInstr, h]

@[simp] theorem State.atEnd_eq_false_iff (s : State) : s.atEnd = false ↔ s.pcval ≠ s.endAddr := by
  simp [State.atEnd]

/-- A running harness not at END ends its step in the fault that stands where the instruction would (R137). -/
theorem step_of_nextInstr_error {s : State} {f : Fault} (ho : s.outcome = .running) (he : s.pcval ≠ s.endAddr)
    (h : s.nextInstr = .error f) : step s = .fault f := by
  simp [step, harnessStep, ho, s.atEnd_eq_false_iff.mpr he, h]

/-- Settles O14: pc mod 4 survives the wrap because 4 divides the size of the address space, and a misaligned pc is
the first thing that fetch tests. -/
theorem pcAlignmentIsKeptAndPcWraps : Obligations.PcAlignmentIsKeptAndPcWraps := by
  refine ⟨fun i s => ?_, fun s ho he ha => ?_⟩
  · obtain ⟨t, ht, hpc⟩ := pcAdvancesByOneInstructionWidth i s
    have hdvd := Cfg.four_dvd_addressSpace s.cfg
    refine ⟨t, ht, ?_, fun htop => ?_⟩
    · rw [hpc, Nat.mod_mod_of_dvd _ hdvd, Nat.add_mod_right]
    · rw [hpc, htop, Nat.sub_add_cancel (Nat.le_of_dvd (Nat.two_pow_pos _) hdvd), Nat.mod_self]
  · exact step_of_nextInstr_error ho he (State.nextInstr_of_fetch_error (s.fetch_of_misaligned ha))

/-! ### Registers across a step (R14, R69) -/

/-- The registers after `mac rd, rs1, rs2`, as unsigned values: the result in the destination, the old values elsewhere
(R65). -/
theorem exec_mac_xval {rd rs1 rs2 : RegId} {s t : State} (h : exec (.mac rd rs1 rs2) s = .next t) (q : RegId) :
    t.xval q =
      if q = rd ∧ rd ≠ 0 then (s.xval rd + s.xval rs1 * s.xval rs2) % 2 ^ s.cfg.XLEN else s.xval q := by
  rw [exec_mac_eq] at h
  cases h
  rw [State.xval_mk, regFileRead_regFileWrite]
  split
  · exact macResult_toNat ..
  · rfl

/-- Settles O44: of the three things a step can do, only executing an instruction changes a register, and `mac` changes
none but its destination. -/
theorem registerChangesOnlyAsDestination : Obligations.RegisterChangesOnlyAsDestination := by
  intro s t r hstep hne
  obtain ⟨-, rfl⟩ | ⟨-, -, rfl⟩ | ⟨-, -, ⟨rd, rs1, rs2⟩, hi, hexec⟩ := step_next_cases hstep
  · exact absurd rfl hne
  · exact absurd (s.xval_halt r) hne
  · have hx := exec_mac_xval hexec r
    by_cases hr : r = rd ∧ rd ≠ 0
    · rw [if_pos hr] at hx
      obtain ⟨rfl, h0⟩ := hr
      exact ⟨h0, rs1, rs2, hi, hx⟩
    · rw [if_neg hr] at hx
      exact absurd hx hne

end Sys2Proof.Machine

namespace Sys2Proof.Machine

/-! ### A step and the launch's data (R34, R134) -/

/-- A step that answers a next state keeps what the launch supplied: only executing an instruction could change it, and
no instruction does (R34). -/
theorem step_keeps_launch {s t : State} (h : step s = .next t) : t.cfg = s.cfg ∧ t.prog = s.prog := by
  obtain ⟨-, rfl⟩ | ⟨-, -, rfl⟩ | ⟨-, -, i, -, hexec⟩ := step_next_cases h
  · exact ⟨rfl, rfl⟩
  · exact ⟨s.halt_cfg, s.halt_prog⟩
  · obtain ⟨hcfg, hprog, -⟩ := exec_keeps_launch hexec
    exact ⟨hcfg, hprog⟩

/-- Settles O43: memory is a view of the configuration and the program, and a step keeps both. -/
theorem stepKeepsProgramAndConfiguration : Obligations.StepKeepsProgramAndConfiguration := by
  intro s t h
  obtain ⟨hcfg, hprog⟩ := step_keeps_launch h
  exact ⟨hcfg, hprog, State.byteAt_congr hcfg hprog⟩

/-! ### The instruction stream by offset from PROG_BASE (R28, R31, R134) -/

/-- Nothing is mapped below PROG_BASE (R31). -/
theorem State.byteAt_of_lt_progBase {s : State} {a : Nat} (h : a < s.cfg.progBase) : s.byteAt a = none := by
  rw [State.byteAt, State.wordAt_of_not_mem fun ⟨hle, _⟩ => Nat.not_lt.mpr hle h, Option.map_none]

/-- Offset `n` from PROG_BASE lies in program word `n / 4`, past the end included: there both sides are absent. -/
theorem State.wordAt_progBase_add (s : State) (n : Nat) : s.wordAt (s.cfg.progBase + n) = s.prog[n / 4]? := by
  by_cases hn : n < 4 * s.prog.length
  · have hend : s.cfg.progBase + n < s.endAddr := by rw [s.endAddr_eq]; omega
    rw [(State.wordAt_of_mem (Nat.le_add_right _ n) hend).1, Nat.add_sub_cancel_left]
  · have hend : ¬ s.cfg.progBase + n < s.endAddr := by rw [s.endAddr_eq]; omega
    rw [State.wordAt_of_not_mem fun ⟨_, hlt⟩ => hend hlt, List.getElem?_eq_none (by omega)]

/-- The byte at offset `n` from PROG_BASE is byte `n % 4` of program word `n / 4` (R28). -/
theorem State.byteAt_progBase_add (s : State) (n : Nat) :
    s.byteAt (s.cfg.progBase + n) = s.prog[n / 4]?.map (byteOfWord · (n % 4)) := by
  rw [State.byteAt, s.wordAt_progBase_add, Nat.add_sub_cancel_left]

/-! ### The four bytes of a fetched word (R28) -/

/-- The bytes from a fetched address up are the bytes of the word fetched there: address and base are both aligned, so
all four lie in the same program word. -/
theorem State.byteAt_add_of_fetch {s : State} {a : Nat} {w : Word} (hbase : s.cfg.progBase % 4 = 0)
    (hfetch : s.fetch a = .ok w) {j : Nat} (hj : j < 4) : s.byteAt (a + j) = some (byteOfWord w j) := by
  obtain ⟨haligned, hword⟩ := State.fetch_ok_wordAt hfetch
  have hle : s.cfg.progBase ≤ a := by
    by_contra hlt
    rw [State.wordAt_of_not_mem fun ⟨hle, _⟩ => hlt hle] at hword
    cases hword
  obtain ⟨n, rfl⟩ := Nat.exists_eq_add_of_le hle
  have hdiv : (n + j) / 4 = n / 4 := by omega
  have hmod : (n + j) % 4 = j := by omega
  rw [s.wordAt_progBase_add] at hword
  rw [Nat.add_assoc, s.byteAt_progBase_add, hdiv, hmod, hword, Option.map_some]

/-- Settles O36: the four bytes are those of the fetched word, and assembling a word's bytes gives the word. -/
theorem fetchIsLittleEndian : Obligations.FetchIsLittleEndian := by
  intro s a w hbase _ hfetch
  have h0 : s.byteAt a = some (byteOfWord w 0) := State.byteAt_add_of_fetch (j := 0) hbase hfetch (by decide)
  have h1 : s.byteAt (a + 1) = some (byteOfWord w 1) := State.byteAt_add_of_fetch hbase hfetch (by decide)
  have h2 : s.byteAt (a + 2) = some (byteOfWord w 2) := State.byteAt_add_of_fetch hbase hfetch (by decide)
  have h3 : s.byteAt (a + 3) = some (byteOfWord w 3) := State.byteAt_add_of_fetch hbase hfetch (by decide)
  refine ⟨by simp [State.fetchBytes, h0, h1, h2, h3], h0, fun b0 b1 b2 b3 e0 e1 e2 e3 => ?_⟩
  obtain rfl := Option.some.inj (h0.symm.trans e0)
  obtain rfl := Option.some.inj (h1.symm.trans e1)
  obtain rfl := Option.some.inj (h2.symm.trans e2)
  obtain rfl := Option.some.inj (h3.symm.trans e3)
  exact (wordOfBytes_byteOfWord w).symm

/-! ### The memory image as a list of cells (R31) -/

@[simp] theorem Memory.read_nil (a : Nat) : Memory.read [] a = none := rfl

@[simp] theorem Memory.read_cons (b : Nat) (v : Byte) (m : List Host.Cell) (a : Nat) :
    Memory.read ((b, v) :: m) a = if b = a then some v else Memory.read m a := by
  by_cases h : b = a <;> simp [Memory.read, h]

/-- The cells of words placed from `b` up hold nothing below `b`. -/
theorem Memory.read_imageFrom_of_lt {a b : Nat} (ws : List Word) (h : a < b) :
    Memory.read (imageFrom b ws) a = none := by
  induction ws generalizing b with
  | nil => rfl
  | cons w ws ih =>
    have hne (j : Nat) : b + j ≠ a := by omega
    simp [imageFrom, hne, h.ne', ih (Nat.lt_add_right 4 h)]

/-- The cells of words placed from `b` up hold, at offset `n`, byte `n % 4` of word `n / 4`: an offset below 4 is one of
the first word's four cells, any other is four less in the cells of the words after it. -/
theorem Memory.read_imageFrom_add (b : Nat) (ws : List Word) (n : Nat) :
    Memory.read (imageFrom b ws) (b + n) = ws[n / 4]?.map (byteOfWord · (n % 4)) := by
  induction ws generalizing b n with
  | nil => rfl
  | cons w ws ih =>
    match n with
    | 0 | 1 | 2 | 3 => simp [imageFrom]
    | m + 4 =>
      have hrest := ih (b + 4) m
      rw [Nat.add_right_comm, Nat.add_assoc] at hrest
      simp [imageFrom, hrest]

/-- Settles O37: below PROG_BASE both views hold nothing, and from it up both are the program's bytes by offset.
Both count from PROG_BASE, so its alignment plays no part. -/
theorem memoryImageReadsAsTheProgram : Obligations.MemoryImageReadsAsTheProgram := by
  intro s a _
  obtain hlt | hle := Nat.lt_or_ge a s.cfg.progBase
  · rw [State.byteAt_of_lt_progBase hlt]
    exact Memory.read_imageFrom_of_lt s.prog hlt
  · obtain ⟨n, rfl⟩ := Nat.exists_eq_add_of_le hle
    rw [s.byteAt_progBase_add]
    exact Memory.read_imageFrom_add s.cfg.progBase s.prog n

end Sys2Proof.Machine

namespace Sys2Proof

/-! ### The fields of a word as numbers (30_encoding.md R36, R37) -/

theorem opcodeOf_toNat (w : Word) : (opcodeOf w).toNat = w.toNat % 128 := by
  simp [opcodeOf, BitVec.extractLsb'_toNat]

theorem rdOf_toNat (w : Word) : (rdOf w).toNat = w.toNat / 2 ^ 7 % 32 := by
  simp [rdOf, BitVec.extractLsb'_toNat, Nat.shiftRight_eq_div_pow]

theorem funct3Of_toNat (w : Word) : (funct3Of w).toNat = w.toNat / 2 ^ 12 % 8 := by
  simp [funct3Of, BitVec.extractLsb'_toNat, Nat.shiftRight_eq_div_pow]

theorem rs1Of_toNat (w : Word) : (rs1Of w).toNat = w.toNat / 2 ^ 15 % 32 := by
  simp [rs1Of, BitVec.extractLsb'_toNat, Nat.shiftRight_eq_div_pow]

theorem rs2Of_toNat (w : Word) : (rs2Of w).toNat = w.toNat / 2 ^ 20 % 32 := by
  simp [rs2Of, BitVec.extractLsb'_toNat, Nat.shiftRight_eq_div_pow]

theorem funct7Of_toNat (w : Word) : (funct7Of w).toNat = w.toNat / 2 ^ 25 % 128 := by
  simp [funct7Of, BitVec.extractLsb'_toNat, Nat.shiftRight_eq_div_pow]

/-- A register's field value is its number (R38, R53). -/
@[simp] theorem fieldOf_toNat (r : RegId) : (fieldOf r).toNat = r.val := by
  simp [fieldOf]

/-- Bit vectors joined do not overlap, so their numbers add up. -/
theorem toNat_append_eq_add {m n : Nat} (x : BitVec m) (y : BitVec n) :
    (x ++ y).toNat = x.toNat * 2 ^ n + y.toNat := by
  rw [BitVec.toNat_append, ← Nat.shiftLeft_add_eq_or_of_lt y.isLt, Nat.shiftLeft_eq]

/-- The number of an encoded instruction (R38). -/
theorem encodeMac_toNat (g : Signature) (d a b : RegId) :
    (encodeMac g d a b).toNat =
      g.funct7.toNat * 2 ^ 25 + b.val * 2 ^ 20 + a.val * 2 ^ 15 + g.funct3.toNat * 2 ^ 12 + d.val * 2 ^ 7
        + g.opcode.toNat := by
  simp only [encodeMac, toNat_append_eq_add, fieldOf_toNat]
  omega

/-! ### The fields of an encoded instruction, and a word put together from its fields (R38) -/

/-- The three signature fields of a word (R40). -/
def signatureOf (w : Word) : Signature := { opcode := opcodeOf w, funct3 := funct3Of w, funct7 := funct7Of w }

theorem isMac_iff (g : Signature) (w : Word) :
    isMac g w = true ↔ opcodeOf w = g.opcode ∧ funct3Of w = g.funct3 ∧ funct7Of w = g.funct7 := by
  simp [isMac, and_assoc]

/-- A word is a mac word exactly when its signature is the configured one. -/
theorem isMac_iff_signatureOf_eq (g : Signature) (w : Word) : isMac g w = true ↔ signatureOf w = g := by
  rw [isMac_iff, signatureOf, Signature.mk.injEq]

section EncodedFields

variable (g : Signature) (d a b : RegId)

@[simp] theorem rdOf_encodeMac : rdOf (encodeMac g d a b) = fieldOf d := by
  apply BitVec.eq_of_toNat_eq
  rw [rdOf_toNat, encodeMac_toNat, fieldOf_toNat]
  omega

@[simp] theorem rs1Of_encodeMac : rs1Of (encodeMac g d a b) = fieldOf a := by
  apply BitVec.eq_of_toNat_eq
  rw [rs1Of_toNat, encodeMac_toNat, fieldOf_toNat]
  omega

@[simp] theorem rs2Of_encodeMac : rs2Of (encodeMac g d a b) = fieldOf b := by
  apply BitVec.eq_of_toNat_eq
  rw [rs2Of_toNat, encodeMac_toNat, fieldOf_toNat]
  omega

@[simp] theorem opcodeOf_encodeMac : opcodeOf (encodeMac g d a b) = g.opcode := by
  apply BitVec.eq_of_toNat_eq
  rw [opcodeOf_toNat, encodeMac_toNat]
  omega

@[simp] theorem funct3Of_encodeMac : funct3Of (encodeMac g d a b) = g.funct3 := by
  apply BitVec.eq_of_toNat_eq
  rw [funct3Of_toNat, encodeMac_toNat]
  omega

@[simp] theorem funct7Of_encodeMac : funct7Of (encodeMac g d a b) = g.funct7 := by
  apply BitVec.eq_of_toNat_eq
  rw [funct7Of_toNat, encodeMac_toNat]
  omega

@[simp] theorem signatureOf_encodeMac : signatureOf (encodeMac g d a b) = g := by
  simp [signatureOf]

@[simp] theorem isMac_encodeMac : isMac g (encodeMac g d a b) = true := by
  simp [isMac_iff]

end EncodedFields

/-- Every word, of this block or not, is the encoding of its register fields under its own signature. -/
theorem encodeMac_signatureOf (w : Word) :
    encodeMac (signatureOf w) (resolveField (rdOf w)) (resolveField (rs1Of w)) (resolveField (rs2Of w)) = w := by
  apply BitVec.eq_of_toNat_eq
  simp only [encodeMac_toNat, signatureOf, resolveField, opcodeOf_toNat, rdOf_toNat, funct3Of_toNat, rs1Of_toNat,
    rs2Of_toNat, funct7Of_toNat]
  omega

/-- A mac word is the encoding of its own register fields (R38). -/
theorem encodeMac_of_isMac {g : Signature} {w : Word} (h : isMac g w = true) :
    encodeMac g (resolveField (rdOf w)) (resolveField (rs1Of w)) (resolveField (rs2Of w)) = w := by
  obtain rfl := (isMac_iff_signatureOf_eq g w).mp h
  exact encodeMac_signatureOf w

/-- Settles O2: the number adds up the fields, and a mac word is put together again from its fields. -/
theorem encoderLayoutAndInverse : Obligations.EncoderLayoutAndInverse := by
  refine ⟨fun g d a b => ⟨encodeMac_toNat g d a b, ?_, ?_, ?_, isMac_encodeMac g d a b⟩,
    fun g w h => (encodeMac_of_isMac h).symm, fun d a b => ?_⟩
  · rw [rdOf_encodeMac, fieldOf_toNat]
  · rw [rs1Of_encodeMac, fieldOf_toNat]
  · rw [rs2Of_encodeMac, fieldOf_toNat]
  · rw [encodeMac_toNat]
    simp [Config.defaultSig]

/-- Settles O1: the field lemmas, and the encoder for the word that carries a given triple. -/
theorem fieldExtractionIsQuotientAndRemainder : Obligations.FieldExtractionIsQuotientAndRemainder := by
  refine ⟨fun w => ⟨opcodeOf_toNat w, rdOf_toNat w, funct3Of_toNat w, rs1Of_toNat w, rs2Of_toNat w, funct7Of_toNat w⟩,
    fun d a b => ⟨encodeMac Config.defaultSig (resolveField d) (resolveField a) (resolveField b), ?_⟩⟩
  simp

/-! ### The mask test (R40) -/

/-- MAC_MATCH is R40's sum: it does not wrap. -/
theorem macMatch_toNat (g : Signature) :
    (macMatch g).toNat = g.funct7.toNat * 2 ^ 25 + g.funct3.toNat * 2 ^ 12 + g.opcode.toNat := by
  rw [macMatch, BitVec.toNat_ofNat]
  omega

/-- MAC_MATCH is the encoding with all register fields 0. -/
theorem macMatch_eq_encodeMac (g : Signature) : macMatch g = encodeMac g 0 0 0 := by
  apply BitVec.eq_of_toNat_eq
  simp [macMatch_toNat, encodeMac_toNat]

/-- MAC_MASK is the word whose signature fields are all ones and whose register fields are 0. -/
theorem macMask_eq_encodeMac :
    macMask = encodeMac { opcode := BitVec.allOnes 7, funct3 := BitVec.allOnes 3, funct7 := BitVec.allOnes 7 } 0 0 0 := by
  decide

/-- Masking an encoded instruction keeps its signature and clears its register fields. -/
theorem encodeMac_and_macMask (g : Signature) (d a b : RegId) : encodeMac g d a b &&& macMask = macMatch g := by
  have hfields : (g.funct7 ++ fieldOf b ++ fieldOf a ++ g.funct3 ++ fieldOf d ++ g.opcode) &&&
      (BitVec.allOnes 7 ++ 0#5 ++ 0#5 ++ BitVec.allOnes 3 ++ 0#5 ++ BitVec.allOnes 7) =
      g.funct7 ++ 0#5 ++ 0#5 ++ g.funct3 ++ 0#5 ++ g.opcode := by
    simp only [BitVec.and_append, BitVec.and_allOnes, BitVec.and_zero]
  rw [macMask_eq_encodeMac, macMatch_eq_encodeMac]
  exact hfields

/-- Masking a word leaves the match value of the word's own signature. -/
theorem and_macMask (w : Word) : w &&& macMask = macMatch (signatureOf w) := by
  conv_lhs => rw [← encodeMac_signatureOf w]
  exact encodeMac_and_macMask ..

/-- Two signatures have one match value only if they are the same: the match value carries its signature. -/
theorem macMatch_inj {g g' : Signature} : macMatch g = macMatch g' ↔ g = g' := by
  refine ⟨fun h => ?_, congrArg macMatch⟩
  rw [macMatch_eq_encodeMac, macMatch_eq_encodeMac] at h
  simpa using congrArg signatureOf h

/-- Settles O3: both tests compare the word's signature with the configured one. -/
theorem signatureTestIsMaskTest : Obligations.SignatureTestIsMaskTest := by
  refine ⟨fun g w => ⟨isMac_iff g w, ?_⟩, macMatch_toNat, rfl, rfl, rfl⟩
  rw [and_macMask, macMatch_inj]
  exact isMac_iff_signatureOf_eq g w

end Sys2Proof

namespace Sys2Proof.Machine

/-! ### A word that is not mac (R43) -/

theorem decodeObj_of_not_isMac {g : Signature} {w : Word} (h : isMac g w = false) : decodeObj g w = .notMac := by
  simp [decodeObj, h]

/-- A fetched word that is not mac stands in no instruction's place: the fault that names it does (R137). -/
theorem State.nextInstr_of_not_isMac {s : State} {w : Word} (hfetch : s.fetch s.pcval = .ok w)
    (h : isMac s.cfg.sig w = false) : s.nextInstr = .error (.unrecognizedWord s.pcval w) := by
  simp [State.nextInstr, hfetch, decode_of_not_isMac h]

/-- Settles O39: the decoder rejects the word, and the step is the fault that stands where the instruction would. -/
theorem nonMacWordIsNeverExecuted : Obligations.NonMacWordIsNeverExecuted :=
  ⟨fun _ _ h => ⟨decodeObj_of_not_isMac h, fun ho he hfetch =>
    step_of_nextInstr_error ho he (State.nextInstr_of_not_isMac hfetch h)⟩, rfl, rfl⟩

/-! ### Register names and the reading of them (R82, R45) -/

theorem regName_toList (r : RegId) : (regName r).toList = 'x' :: Nat.toDigits 10 r.val := by
  simp [regName, Nat.toList_repr]

/-- No two registers share a name (R82): the decimal text determines the number. -/
theorem regName_injective : Function.Injective regName := by
  intro r q h
  have hdigits : Nat.repr r.val = Nat.repr q.val := by simpa [regName] using h
  exact Fin.ext (Nat.repr_injective hdigits)

/-- A register name is an `x` and digits, so it holds no comma. -/
theorem comma_notMem_regName (r : RegId) : ',' ∉ (regName r).toList := by
  rw [regName_toList, List.mem_cons, not_or]
  exact ⟨by decide, fun h => absurd (Nat.isDigit_of_mem_toDigits (by decide) (by decide) h) (by decide)⟩

/-- Reading a name backwards finds the register of that name and no other. -/
theorem regOfName_eq_some_iff (name : List Char) (r : RegId) :
    regOfName name = some r ↔ name = (regName r).toList := by
  constructor
  · intro h
    have hname := List.find?_some h
    exact (beq_iff_eq.mp hname).symm
  · rintro rfl
    obtain ⟨q, hq⟩ : ∃ q, regOfName (regName r).toList = some q :=
      Option.isSome_iff_exists.mp (List.find?_isSome.mpr ⟨r, List.mem_finRange r, beq_self_eq_true _⟩)
    have hname := List.find?_some hq
    rw [beq_iff_eq, String.toList_inj] at hname
    rw [hq, regName_injective hname]

/-! ### The assembler (R45) -/

theorem stripLit_eq_some_iff (lit text rest : List Char) : stripLit lit text = some rest ↔ text = lit ++ rest := by
  induction lit generalizing text with
  | nil => simp [stripLit]
  | cons c lit ih =>
    cases text with
    | nil => simp [stripLit]
    | cons t text =>
      by_cases h : c = t
      · simp [stripLit, h, ih]
      · simp [stripLit, h, Ne.symm h]

/-- Reading an operand up to its comma and going on with `k` succeeds exactly on a register's name, a comma, a space and
a text on which `k` succeeds: a name holds no comma, so the first comma ends it. -/
theorem operand_bind_eq_some_iff (text : List Char) (k : RegId → List Char → Option Instr) (i : Instr) :
    ((regOfName (text.takeWhile (· ≠ ','))).bind fun r =>
      (stripLit ", ".toList (text.dropWhile (· ≠ ','))).bind (k r)) = some i ↔
    ∃ r rest, text = (regName r).toList ++ (", ".toList ++ rest) ∧ k r rest = some i := by
  simp only [Option.bind_eq_some_iff, regOfName_eq_some_iff, stripLit_eq_some_iff]
  constructor
  · rintro ⟨r, hname, rest, hrest, hk⟩
    refine ⟨r, rest, ?_, hk⟩
    rw [← hname, ← hrest, List.takeWhile_append_dropWhile]
  · rintro ⟨r, rest, rfl, hk⟩
    have hall : ∀ c ∈ (regName r).toList, decide (c ≠ ',') = true := by
      intro c hc
      exact decide_eq_true fun h => comma_notMem_regName r (h ▸ hc)
    refine ⟨r, ?_, rest, ?_, hk⟩
    · rw [List.takeWhile_append_of_pos hall]
      simp
    · rw [List.dropWhile_append_of_pos hall]
      simp

/-- The characters of an instruction's text (R81). -/
theorem disassembleWith_toList (rd rs1 rs2 : RegId) :
    (disassembleWith regName (objOf (.mac rd rs1 rs2))).toList =
      "mac ".toList ++ ((regName rd).toList ++ (", ".toList ++
        ((regName rs1).toList ++ (", ".toList ++ (regName rs2).toList)))) := by
  simp [disassembleWith, objOf, construct]

/-- A text assembles to an instruction exactly when it is the instruction's text (R45). -/
theorem assemble_eq_some_iff (text : String) (i : Instr) :
    assemble text = some i ↔ text = disassembleWith regName (objOf i) := by
  have hread : assemble text = some i ↔ ∃ t, text.toList = "mac ".toList ++ t ∧
      ∃ rd t', t = (regName rd).toList ++ (", ".toList ++ t') ∧
      ∃ rs1 t'', t' = (regName rs1).toList ++ (", ".toList ++ t'') ∧
      ∃ rs2, t'' = (regName rs2).toList ∧ some (Instr.mac rd rs1 rs2) = some i := by
    simp only [assemble, Option.bind_eq_bind]
    rw [Option.bind_eq_some_iff]
    -- operand by operand first: the rule for a literal alone would take each operand's reading apart
    simp only [operand_bind_eq_some_iff]
    simp only [stripLit_eq_some_iff, Option.bind_eq_some_iff, regOfName_eq_some_iff]
  rw [hread]
  constructor
  · rintro ⟨_, htext, rd, _, rfl, rs1, _, rfl, rs2, rfl, hi⟩
    obtain rfl := Option.some.inj hi
    rw [← String.toList_inj, htext, disassembleWith_toList]
  · rintro rfl
    obtain ⟨rd, rs1, rs2⟩ := i
    exact ⟨_, disassembleWith_toList rd rs1 rs2, rd, _, rfl, rs1, _, rfl, rs2, rfl, rfl⟩

/-- Settles O32: the assembler reads the canonical text backwards, one literal and one register name at a time. -/
theorem assemblerAcceptsExactlyTheCanonicalText : Obligations.AssemblerAcceptsExactlyTheCanonicalText := by
  refine ⟨assemble_eq_some_iff, fun g => ?_⟩
  have h : assemble "mac x3, x1, x2" = some (.mac 3 1 2) := (assemble_eq_some_iff _ _).mpr (by decide)
  rw [assembleWord, h, Option.map_some, encode]

end Sys2Proof.Machine

namespace Sys2Proof

/-! ### The decoder on words (40_decode.md R50, R59) -/

theorem decodeObj_of_isMac {g : Signature} {w : Word} (h : isMac g w = true) :
    decodeObj g w = .mac (construct (resolve (extractFields w))) :=
  if_pos h

/-- Settles O6: the match selects the arm, and R50's two words are evaluated. -/
theorem decoderIsMatchExtractResolveConstruct : Obligations.DecoderIsMatchExtractResolveConstruct :=
  ⟨fun _ _ => ⟨decodeObj_of_isMac, Machine.decodeObj_of_not_isMac⟩, by decide, by decide⟩

/-- Settles O8: the six words are evaluated. -/
theorem specWordsDecodeAsWritten : Obligations.SpecWordsDecodeAsWritten :=
  ⟨rfl, rfl, rfl, rfl, rfl, rfl⟩

/-- An encoded instruction decodes to its Instruction Object (R59): its fields resolve to its operands. -/
theorem decodeObj_encode (g : Signature) (i : Instr) : decodeObj g (encode g i) = .mac (objOf i) := by
  obtain ⟨rd, rs1, rs2⟩ := i
  have hids : resolve (extractFields (encodeMac g rd rs1 rs2)) = { dest := rd, src1 := rs1, src2 := rs2 } := by
    simp [resolve, extractFields]
  rw [encode, decodeObj_of_isMac (isMac_encodeMac ..), hids, objOf]

/-- A word decodes to an Instruction Object exactly when it is the encoding of its operands and the object is the one the
decoder constructs from them (R56, R59). -/
theorem decodeObj_eq_mac_iff (g : Signature) (w : Word) (o : InstrObj) :
    decodeObj g w = .mac o ↔ o = objOf (instrOf o) ∧ w = encode g (instrOf o) := by
  constructor
  · intro h
    cases hm : isMac g w with
    | false => simp [Machine.decodeObj_of_not_isMac hm] at h
    | true =>
      rw [decodeObj_of_isMac hm, DecodeResult.mac.injEq] at h
      subst h
      exact ⟨rfl, (encodeMac_of_isMac hm).symm⟩
  · rintro ⟨ho, rfl⟩
    rw [decodeObj_encode, ← ho]

/-- Settles O9: `decodeObj_encode`, and a word that decodes is an encoding. -/
theorem decodeAndEncodeAreInverse : Obligations.DecodeAndEncodeAreInverse := by
  refine ⟨fun g d a b => decodeObj_encode g (.mac d a b), fun g w o h => ?_⟩
  obtain ⟨-, hw⟩ := (decodeObj_eq_mac_iff g w o).mp h
  exact hw.symm

/-- The one word that decodes to an instruction is its encoding (R59). -/
theorem decode_eq_ok_iff (g : Signature) (w : Word) (i : Instr) : decode g w = .ok i ↔ w = encode g i := by
  constructor
  · intro h
    have hm := decode_ok_isMac h
    rw [decode_of_isMac hm, Except.ok.injEq] at h
    subst h
    exact (encodeMac_of_isMac hm).symm
  · rintro rfl
    rw [decode, decodeObj_encode]
    simp

/-! ### The decoder on bytes (R28, R35) -/

/-- The bytes of a word decode as the word does, and the rest is handed on. -/
theorem decodeBytes_bytesOfWord_append (g : Signature) (w : Word) (rest : List Byte) :
    decodeBytes g (bytesOfWord w ++ rest) = (decode g w).map (·, rest) := by
  simp only [bytesOfWord, List.cons_append, List.nil_append, decodeBytes, wordOfBytes_byteOfWord]
  cases decode g w <;> rfl

/-- Bytes that decode hold the bytes of a whole word (R35). -/
theorem eq_bytesOfWord_append_of_decodeBytes_ok {g : Signature} {bs : List Byte} {r : Instr × List Byte}
    (h : decodeBytes g bs = .ok r) : ∃ w rest, bs = bytesOfWord w ++ rest := by
  match bs, h with
  | b0 :: b1 :: b2 :: b3 :: rest, _ => exact ⟨wordOfBytes b0 b1 b2 b3, rest, by simp⟩
  | [], h | [_], h | [_, _], h | [_, _, _], h => simp [decodeBytes] at h

/-- The bytes that decode to an instruction and a rest are the instruction's bytes followed by the rest (R59). -/
theorem decodeBytes_eq_ok_iff (g : Signature) (bs rest : List Byte) (i : Instr) :
    decodeBytes g bs = .ok (i, rest) ↔ bs = encodeBytes g i ++ rest := by
  constructor
  · intro h
    obtain ⟨w, rest', rfl⟩ := eq_bytesOfWord_append_of_decodeBytes_ok h
    rw [decodeBytes_bytesOfWord_append] at h
    cases hdec : decode g w with
    | error e => simp [hdec, Except.map] at h
    | ok j =>
      obtain ⟨rfl, rfl⟩ : j = i ∧ rest' = rest := by simpa [hdec, Except.map] using h
      rw [(decode_eq_ok_iff g w j).mp hdec, encodeBytes]
  · rintro rfl
    rw [encodeBytes, decodeBytes_bytesOfWord_append, (decode_eq_ok_iff g _ i).mpr rfl]
    rfl

/-- Settles O10: the two directions of `decodeBytes_eq_ok_iff`; well-formedness excludes no instruction (R55). -/
theorem byteDecoderInvertsByteEncoder : Obligations.ByteDecoderInvertsByteEncoder :=
  ⟨fun g i rest _ => (decodeBytes_eq_ok_iff g _ rest i).mpr rfl,
    fun g bs rest i => (decodeBytes_eq_ok_iff g bs rest i).mp⟩

/-! ### The resolver (R53, R54) -/

/-- Two field values never name one register (R54): `fieldOf` reads the field back. -/
@[simp] theorem resolveField_inj {u v : RegField} : resolveField u = resolveField v ↔ u = v :=
  (Function.LeftInverse.injective fieldOf_resolveField).eq_iff

/-- Settles O7: each operand is `resolveField` of its own field, and `resolveField` is injective with value 0 at 0. -/
theorem resolverNamesEachRegisterOnce : Obligations.ResolverNamesEachRegisterOnce := by
  have hzero : resolveField 0 = 0 := rfl
  refine ⟨fun _ => rfl, fun _ _ => resolveField_inj, fun v => ?_,
    fun _ _ => ⟨resolveField_inj, resolveField_inj, resolveField_inj⟩, fun _ => rfl⟩
  rw [← hzero, resolveField_inj]

end Sys2Proof

namespace Sys2Proof.Machine

/-! ### Completion, result and frame of `mac` (41_mac_execute.md R65 to R74) -/

/-- Settles O25: the Executor has one exit, and the one instruction hands its object to it. -/
theorem executeNeverFaults : Obligations.ExecuteNeverFaults := by
  refine ⟨fun _ _ => rfl, ?_⟩
  rintro ⟨rd, rs1, rs2⟩ s
  exact exec_mac_eq rd rs1 rs2 s

/-- The pc after `mac`, as an unsigned value (R68). -/
theorem exec_mac_pcval {rd rs1 rs2 : RegId} {s t : State} (h : exec (.mac rd rs1 rs2) s = .next t) :
    t.pcval = (s.pcval + 4) % 2 ^ s.cfg.PCLEN := by
  rw [exec_mac_eq] at h
  cases h
  exact nextSequentialAddress_toNat s.pc

/-- The destination after `mac`: R65's result, or 0 when the write is discarded (R13). -/
theorem exec_mac_xval_dest {rd rs1 rs2 : RegId} {s t : State} (h : exec (.mac rd rs1 rs2) s = .next t) :
    t.xval rd = if rd = 0 then 0 else (s.xval rd + s.xval rs1 * s.xval rs2) % 2 ^ s.cfg.XLEN := by
  by_cases hrd : rd = 0
  · simp [hrd]
  · simp [exec_mac_xval h rd, hrd]

/-- A register that is not the destination keeps its value (R74). -/
theorem exec_mac_xval_of_ne {rd rs1 rs2 q : RegId} {s t : State} (h : exec (.mac rd rs1 rs2) s = .next t)
    (hq : q ≠ rd) : t.xval q = s.xval q := by
  simp [exec_mac_xval h q, hq]

/-- Settles O17: the memory is a view of the configuration and the program, which every instruction keeps. -/
theorem macFrame : Obligations.MacFrame := by
  intro rd rs1 rs2 s t h
  obtain ⟨hcfg, hprog, hout⟩ := exec_keeps_launch h
  exact ⟨executeNeverFaults.1 _ s, exec_mac_xval_dest h, fun _ => exec_mac_xval_of_ne h, exec_mac_pcval h, hcfg,
    hprog, hout, State.byteAt_congr hcfg hprog⟩

/-- Settles O15: `mac` completes (`exec_mac_eq`), and its frame says what the next state is. -/
theorem macCompletesWithItsResult : Obligations.MacCompletesWithItsResult := by
  intro rd rs1 rs2 s
  have h := exec_mac_eq rd rs1 rs2 s
  obtain ⟨-, hdest, hothers, hpc, hcfg, hprog, hout, -⟩ := macFrame rd rs1 rs2 s _ h
  exact ⟨_, h, hdest, hothers, hpc, hcfg, hprog, hout⟩

/-- Where the destination is also a source, R67's value needs no case for x0: the product and the sum are then 0. -/
theorem exec_mac_xval_dest_of_aliased {rd rs1 rs2 : RegId} {s t : State} (h : exec (.mac rd rs1 rs2) s = .next t)
    (halias : rs1 = rd ∨ rs2 = rd) :
    t.xval rd = (s.xval rd + s.xval rs1 * s.xval rs2) % 2 ^ s.cfg.XLEN := by
  rw [exec_mac_xval_dest h, ite_eq_right_iff]
  rintro rfl
  obtain rfl | rfl := halias <;> simp

/-- Settles O18: the first three rows alias the destination with a source, the last two do not. -/
theorem aliasedOperandsUseOldValues : Obligations.AliasedOperandsUseOldValues := by
  intro s
  refine ⟨fun r => ?_, fun r q _ => ?_, fun r q _ => ?_, fun r q _ => ?_, fun r p q _ _ _ => ?_⟩
  · exact ⟨_, exec_mac_eq r r r s, exec_mac_xval_dest_of_aliased (exec_mac_eq r r r s) (.inl rfl)⟩
  · exact ⟨_, exec_mac_eq r r q s, exec_mac_xval_dest_of_aliased (exec_mac_eq r r q s) (.inl rfl)⟩
  · exact ⟨_, exec_mac_eq r q r s, exec_mac_xval_dest_of_aliased (exec_mac_eq r q r s) (.inr rfl)⟩
  · exact ⟨_, exec_mac_eq r q q s, exec_mac_xval_dest (exec_mac_eq r q q s)⟩
  · exact ⟨_, exec_mac_eq r p q s, exec_mac_xval_dest (exec_mac_eq r p q s)⟩

/-- Settles O24: each value of the next state is a formula in the operands, the pc and XLEN. -/
theorem macDependsOnlyOnItsOperands : Obligations.MacDependsOnlyOnItsOperands := by
  intro rd rs1 rs2 s s' hxlen hd ha hb hpc
  have h := exec_mac_eq rd rs1 rs2 s
  have h' := exec_mac_eq rd rs1 rs2 s'
  have hXLEN : s.cfg.XLEN = s'.cfg.XLEN := congrArg Xlen.bits hxlen
  refine ⟨_, _, h, h', ?_, ?_⟩
  · rw [exec_mac_xval_dest h, exec_mac_xval_dest h', hd, ha, hb, hXLEN]
  · rw [exec_mac_pcval h, exec_mac_pcval h', hpc, Cfg.PCLEN, hXLEN]

/-! ### The result as arithmetic modulo 2^n (R70 to R72) -/

/-- The result is n-bit multiplication and addition (R70): the one form in which the ring laws apply. -/
theorem macResult_eq {n : Nat} (d a b : BitVec n) : macResult d a b = d + a * b := by
  simp [macResult, BitVec.ofNat_add, BitVec.ofNat_mul]

theorem macResult_zero_left {n : Nat} (d b : BitVec n) : macResult d 0 b = d := by
  rw [macResult_eq, zero_mul, add_zero]

theorem macResult_zero_right {n : Nat} (d a : BitVec n) : macResult d a 0 = d := by
  rw [macResult_eq, mul_zero, add_zero]

/-- Settles O19: a write to x0 is discarded, and a product with x0 leaves the destination the value it has. -/
theorem zeroRegisterFormsOnlyAdvancePc : Obligations.ZeroRegisterFormsOnlyAdvancePc := by
  intro s r q
  refine ⟨?_, ?_, ?_, State.xval_zero _⟩
  · rw [exec_mac_eq, regFileWrite_zero, State.setAddress]
  · rw [exec_mac_eq, regFileRead_zero, macResult_zero_left, regFileWrite_regFileRead, State.setAddress]
  · rw [exec_mac_eq, regFileRead_zero, macResult_zero_right, regFileWrite_regFileRead, State.setAddress]

/-- Settles O23: truncation commutes with addition and multiplication. -/
theorem narrowResultIsLowPartOfWideResult : Obligations.NarrowResultIsLowPartOfWideResult := by
  intro n k hk d a b
  rw [macResult_eq, macResult_eq, BitVec.setWidth_add _ _ hk, BitVec.setWidth_mul _ _ hk]

/-- Settles O20: the low half of the 2n-bit product is the n-bit product. -/
theorem resultIsLowBitsOfExactSum : Obligations.ResultIsLowBitsOfExactSum := by
  intro n d a b
  have hn : n ≤ 2 * n := by omega
  refine ⟨macResult_toNat d a b, macResult_eq d a b, ?_⟩
  rw [macResult_eq, BitVec.setWidth_mul _ _ hn, BitVec.setWidth_setWidth_of_le _ hn,
    BitVec.setWidth_setWidth_of_le _ hn, BitVec.setWidth_eq, BitVec.setWidth_eq]

/-- Settles O21: reducing an integer modulo 2^n commutes with addition and multiplication, and forgets signedness. -/
theorem signednessDoesNotMatter : Obligations.SignednessDoesNotMatter := by
  intro n d a b
  rw [BitVec.ofInt_add, BitVec.ofInt_mul, BitVec.ofInt_toInt, BitVec.ofInt_toInt, BitVec.ofInt_toInt, macResult_eq]

/-- The signed minimum is its own negative. -/
theorem signedMin_add_self (n : Nat) : BitVec.twoPow n (n - 1) + BitVec.twoPow n (n - 1) = 0 := by
  nth_rw 1 [← BitVec.intMin, ← BitVec.neg_intMin]
  exact neg_add_cancel _

/-- From two bits up the square of the signed minimum is a multiple of 2^n. -/
theorem signedMin_mul_self {n : Nat} (hn : 2 ≤ n) : BitVec.twoPow n (n - 1) * BitVec.twoPow n (n - 1) = 0 := by
  rw [BitVec.twoPow_mul_twoPow_eq, BitVec.twoPow_eq]
  exact BitVec.shiftLeft_eq_zero (by omega)

/-- Settles O22: the rows are ring identities in `m` = -1 and `t`, of which `t + t = 0` and `t * t = 0` are known. -/
theorem cornerRows : Obligations.CornerRows := by
  rintro n hn m t hm ht d a b
  obtain rfl : m = -1 := hm.trans BitVec.neg_one_eq_allOnes.symm
  have hadd : t + t = 0 := ht ▸ signedMin_add_self n
  have hmul : t * t = 0 := ht ▸ signedMin_mul_self hn
  refine ⟨macResult_zero_left 0 0, macResult_zero_left d b, macResult_zero_right d a,
    ?_, ?_, ?_, ?_, ?_, ?_, ?_, ?_, ?_⟩ <;> rw [macResult_eq]
  · rw [one_mul, BitVec.ofNat_add, BitVec.ofNat_toNat, BitVec.ofNat_toNat, BitVec.setWidth_eq, BitVec.setWidth_eq]
  -- the rows with `m` and without `t`
  · ring
  · ring
  · ring
  -- the rows with `t`
  · linear_combination hadd
  · linear_combination hadd
  · linear_combination -hadd
  · linear_combination hmul
  · linear_combination hadd

/-! ### The successor of an instruction (R75, R134) -/

/-- In a program that does not wrap, an address that is not END has its successor in the address space (R134). -/
theorem State.Inv.pcval_add_four_lt {s : State} (hinv : s.Inv) (he : s.pcval ≠ s.endAddr) :
    s.pcval + 4 < 2 ^ s.cfg.PCLEN := by
  obtain ⟨hbase, hwrap⟩ := (Cfg.launchOk_iff _ _).mp hinv.launchOk
  have haligned := hinv.aligned
  have hbelow := hinv.below
  rw [State.endAddr_eq] at he hbelow
  omega

/-- Settles O45: a running harness halts at END and executes an instruction anywhere else. -/
theorem onlySuccessorIsNextAddress : Obligations.OnlySuccessorIsNextAddress := by
  intro s t hinv ho hstep
  obtain ⟨hh, -⟩ | ⟨-, he, rfl⟩ | ⟨-, he, ⟨rd, rs1, rs2⟩, -, hexec⟩ := step_next_cases hstep
  · simp [ho] at hh
  · have hpc : s.pcval = s.endAddr := by simpa [State.atEnd] using he
    exact ⟨fun hne => absurd hpc hne, fun _ => ⟨s.halt_outcome, s.pcval_halt⟩⟩
  · have hpc : s.pcval ≠ s.endAddr := s.atEnd_eq_false_iff.mp he
    obtain ⟨-, -, hout⟩ := exec_keeps_launch hexec
    refine ⟨fun _ => ⟨hout.trans ho, ?_⟩, fun heq => absurd heq hpc⟩
    rw [exec_mac_pcval hexec, Nat.mod_eq_of_lt (hinv.pcval_add_four_lt hpc)]

end Sys2Proof.Machine

namespace Sys2Proof

/-- A valid Instruction Object (R18, R56) is the object of its instruction: the identifiers are all it holds beside the
constants. -/
theorem InstrObj.eq_objOf_instrOf {o : InstrObj} (h : o.wf = true) : o = objOf (instrOf o) := by
  obtain ⟨mnemonic, ⟨⟩, dest, src1, src2⟩ := o
  obtain rfl : mnemonic = "mac" := by simpa [InstrObj.wf] using h
  rfl

end Sys2Proof

namespace Sys2Proof.Machine

/-! ### The canonical text (42_disassembler.md R80 to R85) -/

/-- Settles O28: the naming table is defined by R82's formula, and it is injective. -/
theorem registerNamesAreInjective : Obligations.RegisterNamesAreInjective :=
  ⟨fun _ => rfl, fun _ _ h => regName_injective h⟩

/-- Settles O29: the pc plays no part in the text, and valid objects with the same identifiers are the same object. -/
theorem disassemblyIgnoresPc : Obligations.DisassemblyIgnoresPc := by
  refine ⟨fun _ _ _ => rfl, fun o o' ho ho' hdest hsrc1 hsrc2 => ?_⟩
  have hinstr : instrOf o = instrOf o' := by rw [instrOf, instrOf, hdest, hsrc1, hsrc2]
  rw [InstrObj.eq_objOf_instrOf ho, InstrObj.eq_objOf_instrOf ho', hinstr]

/-- A register number below 32 has one or two decimal digits, so its name has two or three characters (R82). -/
theorem regName_length_bounds (r : RegId) : 2 ≤ (regName r).length ∧ (regName r).length ≤ 3 := by
  have hlen : (regName r).length = 1 + (Nat.repr r.val).length := String.length_append "x" _
  have hpos : 0 < (Nat.repr r.val).length := Nat.length_repr_pos
  have htwo : (Nat.repr r.val).length ≤ 2 := (Nat.length_repr_le_iff (by decide)).mpr (by omega)
  omega

/-- The characters of R81: lower-case letters, digits, spaces and commas. -/
def IsTextChar (c : Char) : Prop := c = ' ' ∨ c = ',' ∨ c.isLower = true ∨ c.isDigit = true

theorem isTextChar_of_mem_regName {r : RegId} {c : Char} (h : c ∈ (regName r).toList) : IsTextChar c := by
  rw [regName_toList, List.mem_cons] at h
  obtain rfl | hdigit := h
  · exact .inr (.inr (.inl rfl))
  · exact .inr (.inr (.inr (Nat.isDigit_of_mem_toDigits (by decide) (by decide) hdigit)))

theorem isTextChar_of_mem_disassembleWith {i : Instr} {c : Char}
    (h : c ∈ (disassembleWith regName (objOf i)).toList) : IsTextChar c := by
  have hmnemonic : ∀ c ∈ "mac ".toList, IsTextChar c := by simp [IsTextChar]
  have hseparator : ∀ c ∈ ", ".toList, IsTextChar c := by simp [IsTextChar]
  obtain ⟨rd, rs1, rs2⟩ := i
  simp only [disassembleWith_toList, List.mem_append] at h
  obtain h | h | h | h | h | h := h
  · exact hmnemonic c h
  · exact isTextChar_of_mem_regName h
  · exact hseparator c h
  · exact isTextChar_of_mem_regName h
  · exact hseparator c h
  · exact isTextChar_of_mem_regName h

/-- The mnemonic with its space and the two separators make eight characters, the names the rest (R81). -/
theorem disassembleWith_length (rd rs1 rs2 : RegId) :
    (disassembleWith regName (objOf (.mac rd rs1 rs2))).length =
      8 + (regName rd).length + (regName rs1).length + (regName rs2).length := by
  simp only [← String.length_toList, disassembleWith_toList, List.length_append]
  have hmnemonic : "mac ".toList.length = 4 := rfl
  have hseparator : ", ".toList.length = 2 := rfl
  omega

/-- Settles O30: three names of two or three characters after eight fixed ones, all from R81's alphabet. -/
theorem disassemblyTextShape : Obligations.DisassemblyTextShape := by
  refine ⟨fun ⟨rd, rs1, rs2⟩ => ?_, by decide, rfl, by decide, rfl⟩
  have hlen := disassembleWith_length rd rs1 rs2
  have hrd := regName_length_bounds rd
  have hrs1 := regName_length_bounds rs1
  have hrs2 := regName_length_bounds rs2
  exact ⟨by omega, by omega, fun _ => isTextChar_of_mem_disassembleWith⟩

/-- Assembling an instruction's text gives its encoding (R45). -/
theorem assembleWord_disassembleWith (g : Signature) (i : Instr) :
    assembleWord g (disassembleWith regName (objOf i)) = some (encode g i) := by
  rw [assembleWord, (assemble_eq_some_iff _ i).mpr rfl, Option.map_some]

/-- The text with R82's names written out (R80). -/
theorem disassembleWith_eq (rd rs1 rs2 : RegId) :
    disassembleWith regName (objOf (.mac rd rs1 rs2)) =
      "mac x" ++ Nat.repr rd.val ++ ", x" ++ Nat.repr rs1.val ++ ", x" ++ Nat.repr rs2.val := by
  rw [← String.toList_inj, disassembleWith_toList]
  simp [regName]

/-- Settles O31: a mac word decodes to the object of its fields' instruction, whose encoding the word is. -/
theorem decodedTextShowsFieldsAndAssemblesBack : Obligations.DecodedTextShowsFieldsAndAssemblesBack := by
  intro g w h
  refine ⟨_, decodeObj_of_isMac h, fun n p => ⟨disassembleWith_eq _ _ _, ?_⟩⟩
  have hback := assembleWord_disassembleWith g
    (.mac (resolveField (rdOf w)) (resolveField (rs1Of w)) (resolveField (rs2Of w)))
  rw [encode, encodeMac_of_isMac h] at hback
  exact hback

end Sys2Proof.Machine

namespace Sys2Proof.Machine

/-! ### The ports of the block (45_interfaces.md R98, R99) -/

/-- For a mac word the decoder's ports carry the resolved fields (R98). -/
theorem decodePorts_of_isMac {g : Signature} {w : Word} (h : isMac g w = true) {o : RegIds}
    (ho : o = resolve (extractFields w)) :
    decodePorts g w = some {
      dec := o, decOpclass := .intAlu, rfRaddr0 := o.src1, rfRaddr1 := o.src2, rfRaddr2 := o.dest,
      disText := disassembleWith regName (construct o) } := by
  rw [decodePorts, decodeObj_of_isMac h, ← ho]
  rfl

/-- A word that is not mac drives no decoder port (log 16). -/
theorem decodePorts_of_not_isMac {g : Signature} {w : Word} (h : isMac g w = false) : decodePorts g w = none := by
  rw [decodePorts, decodeObj_of_not_isMac h]

/-- The decoder's side of the block for a presented word (R98). -/
theorem block_dec_of_valid {c : Cfg} {i : PortsIn c} (hv : i.instrValid = true) :
    (block c i).dec = decodePorts c.sig i.instrWord :=
  if_pos hv

/-- The datapath's side of the block answers whenever the decoder's side does. -/
theorem block_data {c : Cfg} (i : PortsIn c) : (block c i).data = (block c i).dec.map (datapathPorts · i) := rfl

/-- Settles O33: the decoder's ports are absent or carry the resolved fields, and the datapath's ports follow them. -/
theorem portOutputsOfTheBlock : Obligations.PortOutputsOfTheBlock := by
  intro c i hv
  refine ⟨rfl, fun hm => ?_, fun hm o ho => ?_⟩
  · have hdec : (block c i).dec = none := (block_dec_of_valid hv).trans (decodePorts_of_not_isMac hm)
    exact ⟨hdec, by rw [block_data, hdec, Option.map_none]⟩
  · have hdec := (block_dec_of_valid hv).trans (decodePorts_of_isMac hm ho)
    refine ⟨hdec, ?_⟩
    rw [block_data, hdec, Option.map_some]
    rfl

/-- A presented mac word makes the register file drive its three operands, read before the write (R92). -/
theorem drivePorts_of_isMac {s : State} {w : Word} (h : isMac s.cfg.sig w = true) {o : RegIds}
    (ho : o = resolve (extractFields w)) :
    drivePorts s w = {
      instrWord := w, instrValid := true, rfRdata0 := regFileRead s.x o.src1, rfRdata1 := regFileRead s.x o.src2,
      rfRdata2 := regFileRead s.x o.dest, pcCur := s.pc } := by
  rw [drivePorts, decodePorts_of_isMac h ho]
  rfl

/-- The transaction of a mac word latches the result and the next address that `exec_mac_eq` gives its instruction. -/
theorem transaction_agrees_with_exec_of_isMac {s : State} {w : Word} (h : isMac s.cfg.sig w = true) {o : RegIds}
    (ho : o = resolve (extractFields w)) :
    ∃ t, transaction s w = some t ∧ exec (.mac o.dest o.src1 o.src2) s = .next t := by
  obtain ⟨-, -, hmac⟩ := portOutputsOfTheBlock s.cfg (drivePorts s w) rfl
  obtain ⟨-, hdata⟩ := hmac h o ho
  refine ⟨_, ?_, exec_mac_eq o.dest o.src1 o.src2 s⟩
  rw [transaction, hdata, drivePorts_of_isMac h ho]
  rfl

/-- Settles O34: a word that decodes is a mac word, and the instruction is that of its resolved fields; the block gives
the datapath no output for another word. -/
theorem portTransactionRefinesExec : Obligations.PortTransactionRefinesExec := by
  intro s w
  refine ⟨fun i hi => ?_, fun hm => ?_⟩
  · have hm := decode_ok_isMac hi
    rw [decode_of_isMac hm, Except.ok.injEq] at hi
    subst hi
    exact transaction_agrees_with_exec_of_isMac hm rfl
  · obtain ⟨-, hother, -⟩ := portOutputsOfTheBlock s.cfg (drivePorts s w) rfl
    obtain ⟨-, hdata⟩ := hother hm
    rw [transaction, hdata, Option.map_none]

end Sys2Proof.Machine

namespace Sys2Proof.Machine

/-! ### The answers of a step (R137), and the faults of the harness (R107, R108) -/

/-- A halted run is over (log 6). -/
theorem step_of_halted {s : State} (h : s.outcome = .halted) : step s = .next s := by
  simp [step, harnessStep, h]

theorem step_of_pcval_eq_endAddr {s : State} (ho : s.outcome = .running) (he : s.pcval = s.endAddr) :
    step s = .next s.halt := by
  simp [step, harnessStep, ho, State.atEnd, he]

theorem step_of_nextInstr_ok {s : State} {i : Instr} (ho : s.outcome = .running) (he : s.pcval ≠ s.endAddr)
    (h : s.nextInstr = .ok i) : step s = exec i s := by
  simp [step, harnessStep, ho, s.atEnd_eq_false_iff.mpr he, h]

/-- A step answers a next state unless a running harness, not at END, has a fault where the instruction would stand:
to halt, to stay halted and to execute an instruction (R105) each give one. -/
theorem step_next_or_nextInstr_error (s : State) :
    (∃ t, step s = .next t) ∨
      ∃ f, s.outcome = .running ∧ s.pcval ≠ s.endAddr ∧ s.nextInstr = .error f ∧ step s = .fault f := by
  cases ho : s.outcome with
  | halted => exact .inl ⟨s, step_of_halted ho⟩
  | running =>
    by_cases he : s.pcval = s.endAddr
    · exact .inl ⟨s.halt, step_of_pcval_eq_endAddr ho he⟩
    · cases hi : s.nextInstr with
      | error f => exact .inr ⟨f, rfl, he, rfl, step_of_nextInstr_error ho he hi⟩
      | ok i =>
        obtain ⟨rd, rs1, rs2⟩ := i
        exact .inl ⟨_, (step_of_nextInstr_ok ho he hi).trans (exec_mac_eq rd rs1 rs2 s)⟩

/-- Settles O42: every answer of a step is a next state or a fault. -/
theorem stepIsNeverRefused : Obligations.StepIsNeverRefused := by
  intro s m h
  obtain ⟨t, ht⟩ | ⟨f, -, -, -, hf⟩ := step_next_or_nextInstr_error s
  · cases h.symm.trans ht
  · cases h.symm.trans hf

theorem step_eq_fault_iff (s : State) (r : Fault) :
    step s = .fault r ↔ s.outcome = .running ∧ s.pcval ≠ s.endAddr ∧ s.nextInstr = .error r := by
  refine ⟨fun h => ?_, fun ⟨ho, he, hi⟩ => step_of_nextInstr_error ho he hi⟩
  obtain ⟨t, ht⟩ | ⟨f, ho, he, hi, hf⟩ := step_next_or_nextInstr_error s
  · cases h.symm.trans ht
  · cases h.symm.trans hf
    exact ⟨ho, he, hi⟩

/-- An aligned address inside the program is fetched (R135). -/
theorem State.fetch_of_mem {s : State} {a : Nat} (ha : a % 4 = 0) (h₁ : s.cfg.progBase ≤ a) (h₂ : a < s.endAddr) :
    ∃ w, s.prog[(a - s.cfg.progBase) / 4]? = some w ∧ s.fetch a = .ok w := by
  obtain ⟨hword, w, hw⟩ := State.wordAt_of_mem h₁ h₂
  exact ⟨w, hw, by simp [State.fetch, ha, hword, hw]⟩

/-- An aligned address outside the program is not (R135). -/
theorem State.fetch_of_not_mem {s : State} {a : Nat} (ha : a % 4 = 0)
    (h : ¬(s.cfg.progBase ≤ a ∧ a < s.endAddr)) : s.fetch a = .error (.fetchOutOfProgram a) := by
  simp [State.fetch, ha, State.wordAt_of_not_mem h]

/-- A fetched mac word is the instruction of its fields (R137, R50). -/
theorem State.nextInstr_of_isMac {s : State} {w : Word} (hfetch : s.fetch s.pcval = .ok w)
    (h : isMac s.cfg.sig w = true) :
    s.nextInstr = .ok (.mac (resolveField (rdOf w)) (resolveField (rs1Of w)) (resolveField (rs2Of w))) := by
  simp [State.nextInstr, hfetch, decode_of_isMac h]

/-- The faults of fetch and decode, in the order of R107's table: alignment decides the first, then the range decides the
second, then the word fetched decides the third. -/
theorem State.nextInstr_eq_error_iff (s : State) (r : Fault) :
    s.nextInstr = .error r ↔
      (s.pcval % 4 ≠ 0 ∧ r = .fetchMisaligned s.pcval) ∨
      (s.pcval % 4 = 0 ∧ ¬(s.cfg.progBase ≤ s.pcval ∧ s.pcval < s.endAddr) ∧ r = .fetchOutOfProgram s.pcval) ∨
      (s.pcval % 4 = 0 ∧ s.cfg.progBase ≤ s.pcval ∧ s.pcval < s.endAddr ∧
        ∃ w, s.prog[(s.pcval - s.cfg.progBase) / 4]? = some w ∧ isMac s.cfg.sig w = false ∧
          r = .unrecognizedWord s.pcval w) := by
  by_cases ha : s.pcval % 4 = 0
  · by_cases hin : s.cfg.progBase ≤ s.pcval ∧ s.pcval < s.endAddr
    · obtain ⟨w, hw, hfetch⟩ := State.fetch_of_mem ha hin.1 hin.2
      cases hm : isMac s.cfg.sig w
      · rw [State.nextInstr_of_not_isMac hfetch hm]
        simp [ha, hin, hw, hm, eq_comm (b := r)]
      · rw [State.nextInstr_of_isMac hfetch hm]
        simp [ha, hin, hw, hm]
    · rw [State.nextInstr_of_fetch_error (State.fetch_of_not_mem ha hin)]
      have hthird (p : Prop) : ¬(s.cfg.progBase ≤ s.pcval ∧ s.pcval < s.endAddr ∧ p) :=
        fun ⟨h₁, h₂, _⟩ => hin ⟨h₁, h₂⟩
      simp [-not_and, ha, hin, hthird, eq_comm (b := r)]
  · rw [State.nextInstr_of_fetch_error (s.fetch_of_misaligned ha)]
    simp [ha, eq_comm (b := r)]

/-- Settles O40: a running harness, not at END, faults with what fetch and decode answer. -/
theorem stepFaultsExactlyInOrder : Obligations.StepFaultsExactlyInOrder := by
  refine ⟨fun s r ho => ?_, fun _ _ => ⟨rfl, rfl, rfl⟩⟩
  rw [step_eq_fault_iff, s.nextInstr_eq_error_iff, and_iff_right ho]

end Sys2Proof.Machine

namespace Sys2Proof.Machine

/-! ### The launch and the harness invariant (R126, R128, R134, R136) -/

theorem State.endAddr_congr {s t : State} (hcfg : t.cfg = s.cfg) (hprog : t.prog = s.prog) : t.endAddr = s.endAddr := by
  rw [State.endAddr_eq, State.endAddr_eq, hcfg, hprog]

/-- The invariant moves with the pc: under the same launch it is only to be shown that the pc stays aligned, between the
old pc and END, and that a halted harness stands at END. -/
theorem State.Inv.of_pcval_le {s t : State} (hinv : s.Inv) (hcfg : t.cfg = s.cfg) (hprog : t.prog = s.prog)
    (haligned : t.pcval % 4 = 0) (hle : s.pcval ≤ t.pcval) (hbelow : t.pcval ≤ s.endAddr)
    (hhalted : t.outcome = .halted → t.pcval = s.endAddr) : t.Inv := by
  have hend := State.endAddr_congr hcfg hprog
  refine ⟨?_, haligned, ?_, hend ▸ hbelow, hend ▸ hhalted⟩
  · rw [hcfg, hprog]
    exact hinv.launchOk
  · rw [hcfg]
    exact hinv.above.trans hle

/-- A word address before END leaves room for a whole instruction width (R134). -/
theorem State.Inv.pcval_add_four_le_endAddr {s : State} (hinv : s.Inv) (he : s.pcval ≠ s.endAddr) :
    s.pcval + 4 ≤ s.endAddr := by
  obtain ⟨hbase, -⟩ := (Cfg.launchOk_iff _ _).mp hinv.launchOk
  have haligned := hinv.aligned
  have hbelow := hinv.below
  rw [State.endAddr_eq] at he hbelow ⊢
  omega

/-- Settles O47: a halted harness stays, one at END halts there, and any other goes on by one instruction width, which
does not pass END. -/
theorem stepKeepsInvariant : Obligations.StepKeepsInvariant := by
  intro s t hinv hstep
  cases ho : s.outcome with
  | halted =>
    rw [step_of_halted ho] at hstep
    cases hstep
    exact hinv
  | running =>
    obtain ⟨hcfg, hprog⟩ := step_keeps_launch hstep
    obtain ⟨hinside, hatEnd⟩ := onlySuccessorIsNextAddress s t hinv ho hstep
    have haligned := hinv.aligned
    by_cases he : s.pcval = s.endAddr
    · obtain ⟨-, hpc⟩ := hatEnd he
      exact hinv.of_pcval_le hcfg hprog (hpc ▸ haligned) hpc.ge (hpc.trans he).le fun _ => hpc.trans he
    · obtain ⟨hrun, hpc⟩ := hinside he
      have hroom := hinv.pcval_add_four_le_endAddr he
      exact hinv.of_pcval_le hcfg hprog (by omega) (by omega) (by omega) fun hh => by simp [hrun] at hh

/-- PROG_BASE of a legal launch fits the pc, so the pc starts there (R126). -/
theorem State.pcval_launch {c : Cfg} {prog : List Word} (h : c.launchOk prog = true)
    (x : Vector (BitVec c.XLEN) 32) : (State.launch c prog x).pcval = c.progBase := by
  obtain ⟨-, hwrap⟩ := (Cfg.launchOk_iff c prog).mp h
  rw [State.launch, State.pcval_mk, BitVec.toNat_ofNat, Nat.mod_eq_of_lt (by omega)]

/-- Settles O48: the register file is the one supplied, and the pc is `State.pcval_launch`. -/
theorem launchStateIsAsSupplied : Obligations.LaunchStateIsAsSupplied := by
  intro c prog x h
  have hpc := State.pcval_launch h x
  obtain ⟨hbase, -⟩ := (Cfg.launchOk_iff c prog).mp h
  refine ⟨rfl, rfl, State.xval_zero _, fun r hr => ?_, hpc, hpc ▸ hbase, rfl⟩
  rw [State.launch, State.xval_mk, regFileRead_of_ne_zero x hr]

/-- A legal launch starts at PROG_BASE, running (R134). -/
theorem State.Inv.launch {c : Cfg} {prog : List Word} (h : c.launchOk prog = true) (x : Vector (BitVec c.XLEN) 32) :
    (State.launch c prog x).Inv := by
  obtain ⟨-, -, -, -, hpc, haligned, -⟩ := launchStateIsAsSupplied c prog x h
  refine ⟨h, haligned, hpc.ge, ?_, fun hh => by simp at hh⟩
  rw [hpc]
  exact Nat.le_add_right _ _

/-- Settles O46: reset is a legal launch of the empty program. -/
theorem launchAndResetMeetInvariant : Obligations.LaunchAndResetMeetInvariant :=
  ⟨fun _ _ x h => State.Inv.launch h x, State.Inv.launch (by decide) _⟩

/-! ### Fetch and the step of a running harness (R135 to R137) -/

/-- Settles O35: alignment is tested first, then the range. -/
theorem fetchCases : Obligations.FetchCases :=
  fun s _ => ⟨s.fetch_of_misaligned, State.fetch_of_mem, State.fetch_of_not_mem⟩

theorem isMac_eq_false_of_decodeObj_notMac {g : Signature} {w : Word} (h : decodeObj g w = .notMac) :
    isMac g w = false := by
  cases hm : isMac g w with
  | false => rfl
  | true => simp [decodeObj_of_isMac hm] at h

/-- A fetched word that decodes is the next instruction (R137). -/
theorem State.nextInstr_of_decode_ok {s : State} {w : Word} {i : Instr} (hfetch : s.fetch s.pcval = .ok w)
    (hdec : decode s.cfg.sig w = .ok i) : s.nextInstr = .ok i := by
  simp [State.nextInstr, hfetch, hdec]

/-- Settles O38: `step` follows what fetch and decode give; an Instruction Object is that of its instruction, so both
forms of the last clause are one. -/
theorem stepRunsTheDecodedInstruction : Obligations.StepRunsTheDecodedInstruction := by
  intro s ho
  refine ⟨step_of_pcval_eq_endAddr ho, fun he => ⟨fun f hf => ?_, fun w hfetch => ?_⟩⟩
  · exact step_of_nextInstr_error ho he (State.nextInstr_of_fetch_error hf)
  · have hexec : ∀ i, decode s.cfg.sig w = .ok i → step s = exec i s := fun i hi =>
      step_of_nextInstr_ok ho he (State.nextInstr_of_decode_ok hfetch hi)
    refine ⟨fun hobj => ?_, fun o hobj => ?_, hexec⟩
    · exact step_of_nextInstr_error ho he
        (State.nextInstr_of_not_isMac hfetch (isMac_eq_false_of_decodeObj_notMac hobj))
    · obtain ⟨-, hexecute⟩ := executeNeverFaults
      obtain ⟨hoi, hw⟩ := (decodeObj_eq_mac_iff _ w o).mp hobj
      rw [hexec _ ((decode_eq_ok_iff _ w _).mpr hw), hexecute, ← hoi]

/-- Settles O41: of the next states of a running harness only the one at END is halted, since an instruction keeps the
outcome. -/
theorem haltsExactlyAtEnd : Obligations.HaltsExactlyAtEnd := by
  intro s ho
  refine ⟨fun he => ⟨step_of_pcval_eq_endAddr ho he, s.pcval_halt, s.xval_halt⟩, fun t hstep => ?_⟩
  obtain ⟨hh, -⟩ | ⟨-, he, rfl⟩ | ⟨-, he, i, -, hexec⟩ := step_next_cases hstep
  · simp [ho] at hh
  · simpa [State.atEnd] using he
  · obtain ⟨-, -, hout⟩ := exec_keeps_launch hexec
    simp [hout, ho, s.atEnd_eq_false_iff.mp he]

/-! ### Straight lines of instructions (R129, R131) -/

@[simp] theorem execAll_nil (s : State) : execAll [] s = .next s := rfl

theorem execAll_cons_of_next {i : Instr} {s s' : State} (h : exec i s = .next s') (is : List Instr) :
    execAll (i :: is) s = execAll is s' := by
  simp [execAll, h]

/-- Settles O26: the first instruction leaves the values `v`, and the second computes with them. -/
theorem secondMacSeesFirstMacsWrite : Obligations.SecondMacSeesFirstMacsWrite := by
  intro d₁ a₁ b₁ d₂ a₂ b₂ s v hv
  obtain ⟨s₁, h₁, -, -, -, hcfg, -⟩ := macCompletesWithItsResult d₁ a₁ b₁ s
  obtain ⟨t, h₂, hdest, hothers, -⟩ := macCompletesWithItsResult d₂ a₂ b₂ s₁
  have hs₁ (r : RegId) : s₁.xval r = v r := by
    have hguard : r = d₁ ∧ d₁ ≠ 0 ↔ r = d₁ ∧ r ≠ 0 := and_congr_right fun h => by rw [h]
    rw [exec_mac_xval h₁ r, hv r, if_congr hguard rfl rfl]
  refine ⟨t, ?_, ?_, fun r hr => (hothers r hr).trans (hs₁ r)⟩
  · rw [execAll_cons_of_next h₁, execAll_cons_of_next h₂, execAll_nil]
  · rw [hdest, hs₁, hs₁, hs₁, hcfg]

/-- Settles O27, by induction on the pairs: no instruction writes a source, so the products after the first are those of
the state before it. -/
theorem straightLineAccumulatesDotProduct : Obligations.StraightLineAccumulatesDotProduct := by
  intro rd ps s hrd hsrc
  induction ps generalizing s with
  | nil => exact ⟨s, rfl, by simp [Nat.mod_eq_of_lt (s.xval_lt rd)], fun _ _ => rfl,
      by simp [Nat.mod_eq_of_lt s.pcval_lt]⟩
  | cons p ps ih =>
    rw [List.forall_mem_cons] at hsrc
    obtain ⟨-, hrest⟩ := hsrc
    obtain ⟨s₁, h₁, hdest₁, hothers₁, hpc₁, hcfg, -⟩ := macCompletesWithItsResult rd p.1 p.2 s
    obtain ⟨t, ht, hdest, hothers, hpc⟩ := ih s₁ hrest
    have hproducts : (ps.map fun q => s₁.xval q.1 * s₁.xval q.2) = ps.map fun q => s.xval q.1 * s.xval q.2 :=
      List.map_congr_left fun q hq => by
        obtain ⟨ha, hb⟩ := hrest q hq
        rw [hothers₁ _ ha, hothers₁ _ hb]
    refine ⟨t, ?_, ?_, fun r hr => (hothers r hr).trans (hothers₁ r hr), ?_⟩
    · rw [List.map_cons, execAll_cons_of_next h₁, ht]
    · rw [hdest, hdest₁, if_neg hrd, hproducts, hcfg, Nat.mod_add_mod, List.map_cons, List.sum_cons, Nat.add_assoc]
    · rw [hpc, hpc₁, hcfg, Nat.mod_add_mod, List.length_cons]
      congr 1
      omega

/-! ### Runs (R138) -/

/-- A run answers a state only through a next state of each of its steps. -/
theorem exists_of_runSteps_succ_eq_next {k : Nat} {s t : State} (h : runSteps (k + 1) s = .next t) :
    ∃ s', step s = .next s' ∧ runSteps k s' = .next t := by
  cases hstep : step s with
  | next s' => exact ⟨s', rfl, runSteps_succ_of_next hstep k ▸ h⟩
  | fault r => simp [runSteps, hstep] at h
  | refused r => simp [runSteps, hstep] at h

/-- What every step keeps, every run keeps. -/
theorem runSteps_keeps {P : State → Prop} (hkeep : ∀ s t, P s → step s = .next t → P t) {k : Nat} {s t : State}
    (hs : P s) (h : runSteps k s = .next t) : P t := by
  induction k generalizing s with
  | zero =>
    cases h
    exact hs
  | succ k ih =>
    obtain ⟨s', hstep, hrest⟩ := exists_of_runSteps_succ_eq_next h
    exact ih (hkeep s s' hs hstep) hrest

theorem runSteps_keeps_launch {k : Nat} {s t : State} (h : runSteps k s = .next t) :
    t.cfg = s.cfg ∧ t.prog = s.prog := by
  refine runSteps_keeps (P := fun u => u.cfg = s.cfg ∧ u.prog = s.prog) (fun u u' hu hstep => ?_) ⟨rfl, rfl⟩ h
  obtain ⟨hcfg, hprog⟩ := step_keeps_launch hstep
  rwa [hcfg, hprog]

theorem runSteps_keeps_inv {k : Nat} {s t : State} (hinv : s.Inv) (h : runSteps k s = .next t) : t.Inv :=
  runSteps_keeps stepKeepsInvariant hinv h

/-- After `j` steps that answer a state, the run is the run from that state. -/
theorem runSteps_add_of_next {j : Nat} {s t : State} (h : runSteps j s = .next t) (k : Nat) :
    runSteps (j + k) s = runSteps k t := by
  induction j generalizing s with
  | zero =>
    cases h
    rw [Nat.zero_add]
  | succ j ih =>
    obtain ⟨s', hstep, hrest⟩ := exists_of_runSteps_succ_eq_next h
    rw [Nat.add_right_comm, runSteps_succ_of_next hstep, ih hrest]

/-- A fault ends the run (R111): more steps answer the same fault. -/
theorem runSteps_add_of_fault {k : Nat} {s : State} {r : Fault} (h : runSteps k s = .fault r) (j : Nat) :
    runSteps (k + j) s = .fault r := by
  induction k generalizing s with
  | zero => cases h
  | succ k ih =>
    rw [Nat.add_right_comm]
    cases hstep : step s with
    | next s' =>
      rw [runSteps_succ_of_next hstep] at h ⊢
      exact ih h
    | fault r' => simpa [runSteps, hstep] using h
    | refused m => simp [runSteps, hstep] at h

/-- A run has one end: extended by each other's steps, a faulting and a halting run would agree. -/
theorem not_haltsWith_of_faultsWith {s t : State} {r : Fault} (hfault : FaultsWith s r) : ¬ HaltsWith s t := by
  rintro ⟨j, hhalt, ho⟩
  obtain ⟨k, hfault⟩ := hfault
  have hnext : runSteps (j + k) s = .next t := by rw [runSteps_add_of_next hhalt, runSteps_of_halted ho]
  rw [Nat.add_comm, runSteps_add_of_fault hfault] at hnext
  cases hnext

/-- From `n` words before END a harness executes at most `n` instructions, one per word, and then halts at END or
faults. -/
theorem exists_run_to_halt_or_fault {n : Nat} {s : State} (hinv : s.Inv) (ho : s.outcome = .running)
    (hn : s.pcval + 4 * n = s.endAddr) :
    ∃ k t, k ≤ n ∧ runSteps k s = .next t ∧ t.outcome = .running ∧ t.pcval = s.pcval + 4 * k ∧
      ((k = n ∧ step t = .next t.halt) ∨ ∃ r, step t = .fault r) := by
  induction n generalizing s with
  | zero => exact ⟨0, s, Nat.le_refl 0, rfl, ho, rfl, .inl ⟨rfl, step_of_pcval_eq_endAddr ho hn⟩⟩
  | succ n ih =>
    cases hstep : step s with
    | fault r => exact ⟨0, s, Nat.zero_le _, rfl, ho, rfl, .inr ⟨r, hstep⟩⟩
    | refused m => exact absurd hstep (stepIsNeverRefused s m)
    | next s' =>
      obtain ⟨hcfg, hprog⟩ := step_keeps_launch hstep
      obtain ⟨hinside, -⟩ := onlySuccessorIsNextAddress s s' hinv ho hstep
      obtain ⟨ho', hpc⟩ := hinside (by omega)
      have hn' : s'.pcval + 4 * n = s'.endAddr := by
        rw [State.endAddr_congr hcfg hprog]
        omega
      obtain ⟨k, t, hk, hrun, hto, htpc, hend⟩ := ih (stepKeepsInvariant s s' hinv hstep) ho' hn'
      refine ⟨k + 1, t, by omega, (runSteps_succ_of_next hstep k).trans hrun, hto, by omega, ?_⟩
      obtain ⟨rfl, hhalt⟩ | hfault := hend
      · exact .inl ⟨rfl, hhalt⟩
      · exact .inr hfault

/-- The invariant leaves a step one fault, a word that is not mac; a program of mac words has none. -/
theorem State.Inv.step_ne_fault {s : State} (hinv : s.Inv) (hmac : ∀ w ∈ s.prog, isMac s.cfg.sig w = true)
    (r : Fault) : step s ≠ .fault r := by
  intro h
  obtain ⟨-, he, hi⟩ := (step_eq_fault_iff s r).mp h
  obtain ⟨ha, -⟩ | ⟨-, hout, -⟩ | ⟨-, -, -, w, hw, hm, -⟩ := (s.nextInstr_eq_error_iff r).mp hi
  · exact ha hinv.aligned
  · exact hout ⟨hinv.above, Nat.lt_of_le_of_ne hinv.below he⟩
  · simp [hmac w (List.mem_of_getElem? hw)] at hm

/-- A legal launch stands L words before END. -/
theorem exists_run_of_launch_to_halt_or_fault {c : Cfg} {prog : List Word} (h : c.launchOk prog = true)
    (x : Vector (BitVec c.XLEN) 32) :
    ∃ k t, k ≤ prog.length ∧ runSteps k (State.launch c prog x) = .next t ∧ t.outcome = .running ∧
      t.pcval = c.progBase + 4 * k ∧ ((k = prog.length ∧ step t = .next t.halt) ∨ ∃ r, step t = .fault r) := by
  have hpc := State.pcval_launch h x
  have hend : (State.launch c prog x).pcval + 4 * prog.length = (State.launch c prog x).endAddr := by
    rw [hpc, State.endAddr_eq, State.launch_cfg, State.launch_prog]
  have hrun := exists_run_to_halt_or_fault (State.Inv.launch h x) rfl hend
  rwa [hpc] at hrun

/-- The run of a launch whose words are all mac words cannot end in a fault, so it halts at END. -/
theorem launch_halts_of_all_isMac {c : Cfg} {prog : List Word} (h : c.launchOk prog = true)
    (x : Vector (BitVec c.XLEN) 32) (hmac : ∀ w ∈ prog, isMac c.sig w = true) :
    ∃ t, HaltsWith (State.launch c prog x) t ∧ t.pcval = c.progBase + 4 * prog.length := by
  obtain ⟨k, t, -, hrun, -, hpc, ⟨rfl, hhalt⟩ | ⟨r, hfault⟩⟩ := exists_run_of_launch_to_halt_or_fault h x
  · exact ⟨t.halt, ⟨prog.length + 1, (runSteps_succ hrun).trans hhalt, t.halt_outcome⟩, hpc⟩
  · obtain ⟨hcfg, hprog⟩ := runSteps_keeps_launch hrun
    have hmacs : ∀ w ∈ t.prog, isMac t.cfg.sig w = true := by
      rw [hcfg, hprog]
      exact hmac
    have hinv := runSteps_keeps_inv (State.Inv.launch h x) hrun
    exact absurd hfault (hinv.step_ne_fault hmacs r)

/-- Settles O50: the bound counts the words between the pc and END, and a run has one end. -/
theorem everyRunEndsWithinProgramLength : Obligations.EveryRunEndsWithinProgramLength :=
  ⟨fun _ _ x h => exists_run_of_launch_to_halt_or_fault h x, fun _ _ x h => launch_halts_of_all_isMac h x,
    fun _ _ _ => not_haltsWith_of_faultsWith⟩

end Sys2Proof.Machine

namespace Sys2Proof

/-! ### How many words are mac words, and which neighbours of a mac word are (30_encoding.md R41) -/

/-- The mac words of a signature are the triples of registers: the encoder and the field extractor are inverse (R38). -/
def macWordEquiv (g : Signature) : { w : Word // isMac g w = true } ≃ RegId × RegId × RegId where
  toFun w := (resolveField (rdOf w.1), resolveField (rs1Of w.1), resolveField (rs2Of w.1))
  invFun r := ⟨encodeMac g r.1 r.2.1 r.2.2, isMac_encodeMac g r.1 r.2.1 r.2.2⟩
  left_inv w := Subtype.ext (encodeMac_of_isMac w.2)
  right_inv r := by simp

/-- Settles O4: the mac words are counted by the three registers they name, each one of 32. -/
theorem exactlyTwoToTheFifteenMacWords : Obligations.ExactlyTwoToTheFifteenMacWords := by
  intro g
  have hreg : Nat.card RegId = 2 ^ 5 := Nat.card_fin 32
  rw [Nat.card_congr (macWordEquiv g), Nat.card_prod, Nat.card_prod, hreg, ← pow_add, ← pow_add]

/-- Flipping bits keeps a mac word a mac word exactly when the mask of R40 sees none of them. -/
theorem isMac_xor_iff {g : Signature} {w : Word} (h : isMac g w = true) (e : Word) :
    isMac g (w ^^^ e) = true ↔ e &&& macMask = 0 := by
  have hmask (v : Word) : isMac g v = true ↔ v &&& macMask = macMatch g := (signatureTestIsMaskTest.1 g v).2
  have hdistrib : (w ^^^ e) &&& macMask = (w &&& macMask) ^^^ (e &&& macMask) := by
    ext i
    simp [Bool.and_xor_distrib_right]
  calc isMac g (w ^^^ e) = true
    _ ↔ macMatch g ^^^ (e &&& macMask) = macMatch g ^^^ 0#32 := by
      rw [hmask, hdistrib, (hmask w).mp h, BitVec.xor_zero]
    _ ↔ e &&& macMask = 0 := BitVec.xor_right_inj _

/-- The bits MAC_MASK leaves out are those of the three register fields (R36, R40). -/
theorem getLsbD_macMask_eq_false_iff {k : Nat} (hk : k < 32) :
    macMask.getLsbD k = false ↔ (7 ≤ k ∧ k < 12) ∨ (15 ≤ k ∧ k < 25) := by
  revert k
  decide

/-- A bit that stands in the word is not the zero word. -/
theorem twoPow_ne_zero {n k : Nat} (hk : k < n) : BitVec.twoPow n k ≠ 0 := by
  intro h
  have hval : 2 ^ k = 0 := (BitVec.toNat_twoPow_of_lt hk).symm.trans (congrArg BitVec.toNat h)
  exact absurd hval (Nat.two_pow_pos k).ne'

/-- Settles O5: a single flipped bit is seen by MAC_MASK exactly outside the register fields. -/
theorem oneBitFlipStaysMacExactlyInRegisterFields : Obligations.OneBitFlipStaysMacExactlyInRegisterFields := by
  intro g w k hk h
  rw [isMac_xor_iff h, ← getLsbD_macMask_eq_false_iff hk, BitVec.twoPow_and]
  cases macMask.getLsbD k with
  | false => simp
  | true => simpa using twoPow_ne_zero hk

/-! ### The width of a register (10_state.md R5) -/

/-- A register has at least 32 bits at both values of XLEN (R5). -/
theorem Cfg.thirtyTwo_le_XLEN (c : Cfg) : 32 ≤ c.XLEN := by
  obtain ⟨xlen, sig, base⟩ := c
  cases xlen with
  | x32 => exact Nat.le_refl 32
  | x64 => exact Nat.le_add_right 32 32

end Sys2Proof

namespace Sys2Proof.Machine

/-! ### The source's scenario (95_test_vectors.md S1) and the reset state (95_test_vectors.md P7) -/

/-- Settles O16: R65's result 10 + 3 * 4 is below 2^32, so no configuration reduces it. -/
theorem sourceScenario : Obligations.SourceScenario := by
  intro s h1 h2 h3
  have hsmall : 22 < 2 ^ s.cfg.XLEN :=
    lt_of_lt_of_le (by decide : 22 < 2 ^ 32) (Nat.pow_le_pow_right (by decide) s.cfg.thirtyTwo_le_XLEN)
  obtain ⟨t, hexec, hdest, hothers, hpc, -⟩ := macCompletesWithItsResult 3 1 2 s
  refine ⟨t, hexec, ?_, ?_, ?_, hpc, disassembleWith_eq 3 1 2⟩
  · rw [hdest, h1, h2, h3]
    exact Nat.mod_eq_of_lt hsmall
  · rw [hothers 1 (by decide), h1]
  · rw [hothers 2 (by decide), h2]

/-- A register file of zeros reads 0 everywhere, at x0 by R11 and elsewhere by R12. -/
theorem regFileRead_replicate_zero (n : Nat) (r : RegId) : regFileRead (Vector.replicate 32 (0 : BitVec n)) r = 0 := by
  by_cases hr : r = 0
  · rw [hr, regFileRead_zero]
  · rw [regFileRead_of_ne_zero _ hr, Vector.getElem_replicate]

/-- Settles O49: the empty program ends where it begins, so the reset pc is END. -/
theorem resetHasNoProgramAndHalts : Obligations.ResetHasNoProgramAndHalts := by
  have hread (r : RegId) : State.reset.xval r = 0 := congrArg BitVec.toNat (regFileRead_replicate_zero _ r)
  have hend : State.reset.pcval = State.reset.endAddr := by decide
  exact ⟨hread, rfl, rfl, rfl, step_of_pcval_eq_endAddr rfl hend⟩

end Sys2Proof.Machine
